-- ==== Sys2Proof/Word.lean ====
section
/-! DEFINITION. The byte, the unit of every datum the engine moves (00_scope.md R12). -/

namespace Sys2Proof

/-- A byte: 8 bits, bit 7 the most significant (R12). -/
abbrev Byte := BitVec 8

end Sys2Proof
end

