-- ==== Sys2Proof/Config.lean ====
section
/-! DEFINITION. The engine's parameters (00_scope.md R7, R8) and its one free value. -/

namespace Sys2Proof.Config

/-- `SYNC`, the sync marker (R7). UNVERIFIED: no literal of R7 was audited against the repository
(92_eei_decisions.md D29, log entry 28). -/
def sync : Byte := 0xA5#8

/-- `MAX_PAYLOAD`, the largest legal length and the size of `rx_buf` (R7). -/
def maxPayload : Nat := 250

/-- `CRC_POLY`, the low eight coefficients of the generator (R7). -/
def crcPoly : Byte := 0x07#8

/-- `CRC_INIT` (R7). -/
def crcInit : Byte := 0x00#8

/-- `CRC_REFLECT` (R7): no reflection. No operation reads it: bit 7 first and the left shift of
`Machine.crcStep` are what it means (40_crc_engine.md R120, R122). -/
def crcReflect : Bool := false

/-- `OVERHEAD`, the bytes of a frame that are not payload (R7). -/
def overhead : Nat := 4

/-- `MAX_FRAME` (R7). -/
def maxFrame : Nat := overhead + maxPayload

/-- `CRC_TABLE_ENTRIES` (R7). -/
def crcTableEntries : Nat := 256

/-- `CNT_W`, the width of the three counters: OPEN, default 32 (R8, D8; log entry 3). -/
abbrev cntW : Nat := 32

/-- `TXLEN_W`, the width of SEND's length argument: OPEN, default 16 (R8, D13; log entry 4). -/
abbrev txLenW : Nat := 16

/-- What byte `i` of `rx_buf` holds before the parser has written it: unspecified (10_state.md R38,
93_implementation_defined.md U12), hence a free value of which nothing can be proved.
DESIGN CHOICE, log entry 2 (safe). -/
opaque rxBufUnwritten : Nat → Byte

end Sys2Proof.Config

namespace Sys2Proof

/-- A counter: `CNT_W` bits (10_state.md R31 to R34). -/
abbrev Count := BitVec Config.cntW

/-- SEND's length argument: `TXLEN_W` bits, unsigned (42_frame_encoder.md R180). -/
abbrev TxLen := BitVec Config.txLenW

end Sys2Proof
end

