-- ==== Sys2Proof/Syntax.lean ====
section
/-! DEFINITION. The parser's states, the instructions (one constructor for each row of
spec/opcode_table.json) and the three formats they are encoded in. -/

namespace Sys2Proof

/-- The five values of the register `state` (10_state.md R21), each named after the field just
completed (90_conflicts.md C5). -/
inductive ParserState where
  | idle
  | gotSync
  | gotId
  | gotLen
  | gotPayload
deriving DecidableEq, Repr

/-- The formats of spec/opcode_table.json: the owner's operations, the words the parser decodes
(its `state` and the received byte), and the frame on the wire. -/
inductive Format where
  | op
  | rxdec
  | wire
deriving DecidableEq, Repr

/-- The instructions: ten operations (00_scope.md R9), ten transitions of RXB (30_encoding.md R98)
and the wire format (R90). -/
inductive Instr where
  /-- INIT (43_context_ops.md R200). -/
  | init (hasMsg hasSink : Bool)
  /-- RXB (41_frame_parser.md R140). -/
  | rxb (b : Byte)
  /-- RXS (R153): a finite sequence, possibly empty. -/
  | rxs (bytes : List Byte)
  /-- RESET (43_context_ops.md R203). -/
  | reset
  /-- SEND (42_frame_encoder.md R180). `pay` holds the readable bytes of the space TXPAY
  (20_memory.md R62). -/
  | send (id : Byte) (n : TxLen) (present : Bool) (pay : List Byte)
  /-- RDRX (43_context_ops.md R206). -/
  | rdrx
  /-- RDREJ (R207). -/
  | rdrej
  /-- RDTX (R208). -/
  | rdtx
  /-- CRC8 (40_crc_engine.md R121). -/
  | crc8 (data : List Byte)
  /-- CRCU (R120). -/
  | crcu (running byte : Byte)
  /-- T_SYNC (41_frame_parser.md R141): the byte is `SYNC`. -/
  | tSync
  /-- T_SKIP (R142). -/
  | tSkip (b : Byte)
  /-- T_ID (R143). -/
  | tId (b : Byte)
  /-- T_LEN0 (R145): the byte is 0. -/
  | tLen0
  /-- T_LEN (R144). -/
  | tLen (b : Byte)
  /-- T_LENOVF (R146). -/
  | tLenOvf (b : Byte)
  /-- T_DATA (R147). -/
  | tData (b : Byte)
  /-- T_DATAEND (R148). -/
  | tDataEnd (b : Byte)
  /-- T_ACCEPT (R150). -/
  | tAccept (b : Byte)
  /-- T_REJECT (R151). -/
  | tReject (b : Byte)
  /-- FRAME (30_encoding.md R90): id, payload (its length is the length byte) and checksum byte. -/
  | frame (id : Byte) (payload : List Byte) (check : Byte)
deriving DecidableEq, Repr

/-- The registers under which an RXDEC word is decoded, beside the `state` it carries
(30_encoding.md R98). -/
structure DecodeRegs where
  cursor : Byte
  msgLen : Byte
  crc    : Byte
deriving DecidableEq, Repr

end Sys2Proof
end

