-- ==== Sys2Proof/WellFormed.lean ====
section
/-! DEFINITION. Which instructions are well formed: the operand conditions of spec/opcode_table.json. -/

namespace Sys2Proof

/-- The operand conditions: with a null payload there are no payload bytes (42_frame_encoder.md R180);
the byte ranges of the decode map (30_encoding.md R98); a frame's payload is at most 250 bytes
(R93, R94). Every other operand is free. -/
def Instr.wellFormed : Instr → Bool
  | .init _ _ => true
  | .rxb _ => true
  | .rxs _ => true
  | .reset => true
  | .send _ _ present pay => present || pay.isEmpty
  | .rdrx => true
  | .rdrej => true
  | .rdtx => true
  | .crc8 _ => true
  | .crcu _ _ => true
  | .tSync => true
  | .tSkip b => b != Config.sync
  | .tId _ => true
  | .tLen0 => true
  | .tLen b => decide (1 ≤ b.toNat ∧ b.toNat ≤ Config.maxPayload)
  | .tLenOvf b => decide (Config.maxPayload < b.toNat)
  | .tData _ => true
  | .tDataEnd _ => true
  | .tAccept _ => true
  | .tReject _ => true
  | .frame _ payload _ => decide (payload.length ≤ Config.maxPayload)

end Sys2Proof
end

