-- ==== Sys2Proof/Decode.lean ====
section
/-! DEFINITION. The decoder, total on any bytes, and after it the encoder.

The spec fixes the selector of an operation (30_encoding.md R100), the RXDEC word (R98,
92_eei_decisions.md D7) and the frame (R90). It gives an operation's operands no encoding (N28): their
layout below is the model's own (DESIGN CHOICE, log entry 6, safe: no rule depends on it). -/

namespace Sys2Proof

/-- Why bytes are no instruction. -/
inductive DecodeError where
  /-- No byte at all. -/
  | empty
  /-- The first byte of an OP word has a bit above its 4-bit selector. -/
  | notASelector
  /-- Selector 10 to 15 (30_encoding.md R100). -/
  | reservedSelector
  /-- The bytes end inside the instruction. -/
  | truncated
  /-- A one-bit operand's byte is neither 0 nor 1, or INIT's flag byte has a bit above its two. -/
  | badFlag
  /-- A byte sequence's mark is neither "another byte" nor "end". -/
  | badMark
  /-- SEND with a null payload that carries payload bytes. -/
  | payloadWhileNull
  /-- The state half of an RXDEC word is none of the five states (93_implementation_defined.md U20). -/
  | noSuchState
  /-- A frame's first byte is not `SYNC` (30_encoding.md R91). -/
  | badSync
  /-- A frame's length byte is 251 to 255 (R93). -/
  | illegalLength
  /-- A byte other than 0 after the instruction. -/
  | trailing
deriving DecidableEq, Repr

/-! ### The states' numbers -/

/-- The number of a state (10_state.md R21, D7). -/
def ParserState.code : ParserState → Byte
  | .idle => 0#8
  | .gotSync => 1#8
  | .gotId => 2#8
  | .gotLen => 3#8
  | .gotPayload => 4#8

/-- The state of a number; 5, 6, 7 and anything above are none. -/
def ParserState.ofCode (c : Byte) : Option ParserState :=
  match c.toNat with
  | 0 => some .idle
  | 1 => some .gotSync
  | 2 => some .gotId
  | 3 => some .gotLen
  | 4 => some .gotPayload
  | _ => none

/-! ### RXDEC: the decode map of the parser -/

/-- The transition a byte drives under `state` and the registers: the decode map, 30_encoding.md R98.
In `GotLen` the test is R149's, `cursor + 1 = msg_len` or not; where R147's `cursor + 1 < msg_len` fails
too, which R148 says cannot occur, this is R149's else branch (DEDUCED, log entry 9). -/
def transitionOf (regs : DecodeRegs) (state : ParserState) (b : Byte) : Instr :=
  match state with
  | .idle => if b = Config.sync then .tSync else .tSkip b
  | .gotSync => .tId b
  | .gotId =>
    if b = 0#8 then .tLen0
    else if b.toNat ≤ Config.maxPayload then .tLen b
    else .tLenOvf b
  | .gotLen => if regs.cursor + 1#8 = regs.msgLen then .tDataEnd b else .tData b
  | .gotPayload => if b = regs.crc then .tAccept b else .tReject b

/-- Decode an RXDEC word: the byte in bits 7:0, the state above it. -/
def decodeRx (regs : DecodeRegs) : List Byte → Except DecodeError (Instr × List Byte)
  | [] => .error .empty
  | [_] => .error .truncated
  | b :: st :: rest =>
    match ParserState.ofCode st with
    | some state => .ok (transitionOf regs state b, rest)
    | none => .error .noSuchState

/-! ### OP: the owner's operations -/

/-- A byte sequence: `01` before each byte, `00` at the end. -/
def takeSeq : List Byte → Except DecodeError (List Byte × List Byte)
  | [] => .error .truncated
  | [m] => if m = 0#8 then .ok ([], []) else if m = 1#8 then .error .truncated else .error .badMark
  | m :: b :: rest =>
    if m = 0#8 then .ok ([], b :: rest)
    else if m = 1#8 then
      match takeSeq rest with
      | .ok (bytes, rest') => .ok (b :: bytes, rest')
      | .error e => .error e
    else .error .badMark

/-- INIT's operands: bit 0 `has_msg`, bit 1 `has_sink`. -/
def decodeInit : List Byte → Except DecodeError (Instr × List Byte)
  | [] => .error .truncated
  | f :: rest =>
    if f.toNat < 4 then .ok (.init (f.getLsbD 0) (f.getLsbD 1), rest) else .error .badFlag

/-- RXB's operand. -/
def decodeRxb : List Byte → Except DecodeError (Instr × List Byte)
  | [] => .error .truncated
  | b :: rest => .ok (.rxb b, rest)

/-- RXS's operand. -/
def decodeRxs (bytes : List Byte) : Except DecodeError (Instr × List Byte) :=
  match takeSeq bytes with
  | .ok (data, rest) => .ok (.rxs data, rest)
  | .error e => .error e

/-- SEND's operands: id, `n` (low byte first), `present`, the payload. -/
def decodeSend : List Byte → Except DecodeError (Instr × List Byte)
  | id :: lo :: hi :: p :: rest =>
    match takeSeq rest with
    | .error e => .error e
    | .ok (pay, rest') =>
      let n : TxLen := BitVec.ofNat Config.txLenW (lo.toNat + 256 * hi.toNat)
      if p = 1#8 then .ok (.send id n true pay, rest')
      else if p = 0#8 then
        if pay.isEmpty then .ok (.send id n false [], rest') else .error .payloadWhileNull
      else .error .badFlag
  | _ => .error .truncated

/-- CRC8's operand. -/
def decodeCrc8 (bytes : List Byte) : Except DecodeError (Instr × List Byte) :=
  match takeSeq bytes with
  | .ok (data, rest) => .ok (.crc8 data, rest)
  | .error e => .error e

/-- CRCU's operands. -/
def decodeCrcu : List Byte → Except DecodeError (Instr × List Byte)
  | r :: b :: rest => .ok (.crcu r b, rest)
  | _ => .error .truncated

/-- Decode an OP word and its operands by the selector (30_encoding.md R100). -/
def decodeOp : List Byte → Except DecodeError (Instr × List Byte)
  | [] => .error .empty
  | op :: rest =>
    match op.toNat with
    | 0 => decodeInit rest
    | 1 => decodeRxb rest
    | 2 => decodeRxs rest
    | 3 => .ok (.reset, rest)
    | 4 => decodeSend rest
    | 5 => .ok (.rdrx, rest)
    | 6 => .ok (.rdrej, rest)
    | 7 => .ok (.rdtx, rest)
    | 8 => decodeCrc8 rest
    | 9 => decodeCrcu rest
    | k => if k < 16 then .error .reservedSelector else .error .notASelector

/-! ### WIRE: the frame -/

/-- Decode a frame (30_encoding.md R90, R96): the length byte says how many payload bytes follow.
The checksum byte is taken as it is: whether it matches is the parser's to say (R99, log entry 7). -/
def decodeWire : List Byte → Except DecodeError (Instr × List Byte)
  | [] => .error .empty
  | sync :: rest =>
    if sync = Config.sync then
      match rest with
      | id :: len :: rest' =>
        if len.toNat ≤ Config.maxPayload then
          match rest'.drop len.toNat with
          | check :: rest'' => .ok (.frame id (rest'.take len.toNat) check, rest'')
          | [] => .error .truncated
        else .error .illegalLength
      | _ => .error .truncated
    else .error .badSync

/-- What the bytes of the wire are: the row FRAME where they are one whole frame, and otherwise RXS of them.
The wire has no undefined byte sequence: noise, an illegal length, a frame cut short and bytes behind a frame
are all the parser's to take (30_encoding.md R99, 60_exceptions.md R240; log entry 7). -/
def decodeStream (bytes : List Byte) : Instr :=
  match decodeWire bytes with
  | .ok (i, []) => i
  | _ => .rxs bytes

/-! ### The decoder -/

/-- The instruction at the front of the bytes, and what follows it. -/
def decodeFront (fmt : Format) (regs : DecodeRegs) (bytes : List Byte) :
    Except DecodeError (Instr × List Byte) :=
  match fmt with
  | .op => decodeOp bytes
  | .rxdec => decodeRx regs bytes
  | .wire => decodeWire bytes

/-- The instruction that the bytes of one transfer encode. After it only filler of zeros may stand
(DESIGN CHOICE, log entry 6). -/
def decode (fmt : Format) (regs : DecodeRegs) (bytes : List Byte) : Except DecodeError Instr :=
  match decodeFront fmt regs bytes with
  | .ok (i, rest) => if rest.all (· == 0#8) then .ok i else .error .trailing
  | .error e => .error e

/-! ### The encoder -/

/-- The format an instruction is encoded in (spec/opcode_table.json). -/
def Instr.format : Instr → Format
  | .init _ _ => .op
  | .rxb _ => .op
  | .rxs _ => .op
  | .reset => .op
  | .send _ _ _ _ => .op
  | .rdrx => .op
  | .rdrej => .op
  | .rdtx => .op
  | .crc8 _ => .op
  | .crcu _ _ => .op
  | .tSync => .rxdec
  | .tSkip _ => .rxdec
  | .tId _ => .rxdec
  | .tLen0 => .rxdec
  | .tLen _ => .rxdec
  | .tLenOvf _ => .rxdec
  | .tData _ => .rxdec
  | .tDataEnd _ => .rxdec
  | .tAccept _ => .rxdec
  | .tReject _ => .rxdec
  | .frame _ _ _ => .wire

/-- A byte sequence as `takeSeq` reads it. -/
def encodeSeq : List Byte → List Byte
  | [] => [0#8]
  | b :: bytes => 1#8 :: b :: encodeSeq bytes

/-- A one-bit operand as a byte. -/
def flagByte (f : Bool) : Byte := if f then 1#8 else 0#8

/-- The bytes of an instruction: the selectors of R100, the RXDEC words of R98, the frame of R90. -/
def encode : Instr → List Byte
  | .init hasMsg hasSink => [0#8, flagByte hasMsg + (flagByte hasSink <<< 1)]
  | .rxb b => [1#8, b]
  | .rxs bytes => 2#8 :: encodeSeq bytes
  | .reset => [3#8]
  | .send id n present pay =>
    [4#8, id, BitVec.ofNat 8 n.toNat, BitVec.ofNat 8 (n.toNat / 256), flagByte present] ++ encodeSeq pay
  | .rdrx => [5#8]
  | .rdrej => [6#8]
  | .rdtx => [7#8]
  | .crc8 data => 8#8 :: encodeSeq data
  | .crcu running byte => [9#8, running, byte]
  | .tSync => [Config.sync, ParserState.idle.code]
  | .tSkip b => [b, ParserState.idle.code]
  | .tId b => [b, ParserState.gotSync.code]
  | .tLen0 => [0#8, ParserState.gotId.code]
  | .tLen b => [b, ParserState.gotId.code]
  | .tLenOvf b => [b, ParserState.gotId.code]
  | .tData b => [b, ParserState.gotLen.code]
  | .tDataEnd b => [b, ParserState.gotLen.code]
  | .tAccept b => [b, ParserState.gotPayload.code]
  | .tReject b => [b, ParserState.gotPayload.code]
  | .frame id payload check =>
    [Config.sync, id, BitVec.ofNat 8 payload.length] ++ payload ++ [check]

/-- The register condition under which the decode map gives an instruction: only the last four
transitions have one (30_encoding.md R98; in `GotLen` as `transitionOf` says). -/
def Instr.selectedBy (regs : DecodeRegs) : Instr → Bool
  | .init _ _ => true
  | .rxb _ => true
  | .rxs _ => true
  | .reset => true
  | .send _ _ _ _ => true
  | .rdrx => true
  | .rdrej => true
  | .rdtx => true
  | .crc8 _ => true
  | .crcu _ _ => true
  | .tSync => true
  | .tSkip _ => true
  | .tId _ => true
  | .tLen0 => true
  | .tLen _ => true
  | .tLenOvf _ => true
  | .tData _ => regs.cursor + 1#8 != regs.msgLen
  | .tDataEnd _ => regs.cursor + 1#8 == regs.msgLen
  | .tAccept b => b == regs.crc
  | .tReject b => b != regs.crc
  | .frame _ _ _ => true

/-! ### The opcode table's words -/

/-- The first `k` bytes of a number, least significant first. -/
def bytesOfNat : Nat → Nat → List Byte
  | 0, _ => []
  | k + 1, w => BitVec.ofNat 8 w :: bytesOfNat k (w / 256)

/-- The registers under which an RXDEC word OF THE TABLE is decoded: those after reset, but in `GotLen`
a length of 2 with nothing stored yet, since 0 is no length there (DESIGN CHOICE, log entry 27). -/
def tableRegs (state : ParserState) : DecodeRegs :=
  match state with
  | .gotLen => { cursor := 0#8, msgLen := 2#8, crc := 0#8 }
  | _ => { cursor := 0#8, msgLen := 0#8, crc := 0#8 }

/-- The format of a table word of so many bits: 4 bits (one byte) an OP word, 11 bits (two bytes) an
RXDEC word, anything longer a frame; the single byte `SYNC`, no OP word, is a frame's first. -/
def tableFormat (nbits w : Nat) : Format :=
  if nbits ≤ 8 then (if BitVec.ofNat 8 w = Config.sync then .wire else .op)
  else if nbits ≤ 16 then .rxdec
  else .wire

/-- How many bytes of zeros stand above `nbits`: enough for the operands of any OP or RXDEC word, and for the
payload that a frame's length byte claims. -/
def tableFiller (nbits w : Nat) : Nat :=
  match tableFormat nbits w with
  | .wire => 8 + (BitVec.ofNat 8 (w / 65536)).toNat
  | .op => 8
  | .rxdec => 8

/-- A table word as bytes, with the zeros above `nbits` that the table gives its operands. -/
def tableBytes (nbits w : Nat) : List Byte :=
  bytesOfNat ((nbits + 7) / 8) w ++ List.replicate (tableFiller nbits w) 0#8

/-- The state half of an RXDEC table word. -/
def tableState (w : Nat) : Option ParserState :=
  ParserState.ofCode (BitVec.ofNat 8 (w / 256))

/-- The instruction the decoder reads from a word of spec/opcode_table.json. -/
def decodeTableWord (nbits w : Nat) : Option Instr :=
  match decode (tableFormat nbits w) (tableRegs ((tableState w).getD .idle)) (tableBytes nbits w) with
  | .ok i => some i
  | .error _ => none

end Sys2Proof
end

