-- ==== Sys2Proof/Machine/State.lean ====
section
/-! DEFINITION. The machine's state: the protocol context (10_state.md R20), the operations presented to
it and what has left it, with the reasons a step stops and the state after reset. -/

namespace Sys2Proof.Machine

/-! ### What stands in the state -/

/-- The receive buffer `rx_buf` (10_state.md R26): the bytes the parser has written, by index, indices
strictly rising and below 250. An index that is not listed has never been written. -/
abbrev RxBuf := List Host.Cell

/-- What leaves the engine by itself (00_scope.md R11): a message event with its payload by value
(D31, log entry 19), or the burst of a sink event. -/
inductive Event where
  | msg (id len : Byte) (payload : List Byte)
  | sink (bytes : List Byte)
deriving DecidableEq, Repr

/-- The result of an operation that has one (00_scope.md R9). -/
inductive Result where
  /-- INIT, SEND. -/
  | ok (b : Bool)
  /-- RDRX, RDREJ, RDTX. -/
  | count (c : Count)
  /-- CRC8, CRCU. -/
  | byte (b : Byte)
deriving DecidableEq, Repr

/-- Who issues an operation (70_reset_and_hazards.md R272): the owner, or a collaborator from inside a
message event or a sink event (log entries 17 and 31). -/
inductive Origin where
  | owner
  | inMessageEvent
  | inSinkEvent
deriving DecidableEq, Repr

/-- What one transfer carries (10_state.md R40): an operation word with its operands, a byte on the `rx`
channel, or bytes of the wire, a whole frame or not. -/
inductive Payload where
  | op (bytes : List Byte)
  | rx (b : Byte)
  | wire (bytes : List Byte)
deriving DecidableEq, Repr

/-- One operation as it is presented to the engine. -/
structure Transfer where
  origin  : Origin
  payload : Payload
deriving DecidableEq, Repr

/-- The anomalies (60_exceptions.md R220) with the `info` of `raise A(info)`, which no state holds (R226). -/
inductive Anomaly where
  | syncLoss (b : Byte)
  | lengthOverflow (b : Byte)
  | checksumMismatch (b crc : Byte)
  | encodeRejected (n : TxLen) (present : Bool)
  | initRejected (hasMsg hasSink : Bool)
deriving DecidableEq, Repr

/-- The state of the machine. The first twelve fields are the protocol context (10_state.md R20 to R35);
the constant table `T` (R27) is the definition `crcTable`. -/
structure State where
  /-- R30. -/
  ready          : Bool
  /-- R21, the analogue of a program counter. -/
  state          : ParserState
  /-- R22. -/
  msgId          : Byte
  /-- R23. -/
  msgLen         : Byte
  /-- R24. -/
  cursor         : Byte
  /-- R25. -/
  crc            : Byte
  /-- R26. -/
  rxBuf          : RxBuf
  /-- R31. -/
  framesRx       : Count
  /-- R32. -/
  framesRejected : Count
  /-- R33. -/
  framesTx       : Count
  /-- R35. -/
  hasMsg         : Bool
  /-- R35. -/
  hasSink        : Bool
  /-- The transfers presented and not yet run, the next one first (R40, 20_memory.md R63). -/
  input          : List Transfer
  /-- The message and sink events emitted, oldest first (00_scope.md R11, R13). -/
  events         : List Event
  /-- The results returned, oldest first (R11). -/
  results        : List Result
deriving DecidableEq, Repr

/-! ### How a step stops -/

/-- The faults. The spec treats no situation as a fault (93_implementation_defined.md section 2); the one
here guards an access that the spec says does not exist. -/
inductive Fault where
  /-- An index of `rx_buf` above 249 (20_memory.md R68). Raised by the store of T_DATA and T_DATAEND and by
  the view of T_ACCEPT, in states that break 10_state.md R28 only. Safe: log entry 10. -/
  | rxBufIndexOutside (index : Nat)
deriving DecidableEq, Repr

/-- The refusals: the situations the spec gives no meaning (`refuse`, 00_scope.md R13). -/
inductive Refusal where
  /-- An instruction that has no meaning yet; raised by `exec` alone. Safe. -/
  | notModelled (mnemonic : String)
  /-- `ready = 0` (43_context_ops.md R210). Raised by RXB, RXS, RESET, SEND, RDRX, RDREJ, RDTX, the
  transitions and FRAME. Safe: log entry 16. -/
  | notReady
  /-- A transition that `state`, the byte and the registers do not select (30_encoding.md R98). Raised by
  the ten transitions. Safe: log entry 8. -/
  | transitionNotSelected
  /-- An operation that may not be issued from inside the event it comes from (70_reset_and_hazards.md
  R272). Raised by `step`. Safe: log entry 17. -/
  | insideEvent (origin : Origin)
  /-- Fewer than `n` readable payload bytes (R271). Raised by SEND. Safe: log entry 18. -/
  | payloadTooShort
  /-- An operation transfer whose selector is 10 to 15 (30_encoding.md R100, U19), or whose bytes encode no
  operation with its operands. Raised by `step`; received bytes never meet it. Safe: log entry 6. -/
  | undecodable (e : DecodeError)
deriving DecidableEq, Repr

/-- What a step answers. -/
abbrev Outcome := Host.Outcome State Fault Refusal

/-! ### Reset -/

/-- The state after the hardware reset, a successful INIT (10_state.md R38, 92_eei_decisions.md D4; log
entry 1): the receive buffer unwritten, nothing presented, nothing emitted, nothing returned. -/
def State.reset : State where
  ready := true
  state := .idle
  msgId := 0#8
  msgLen := 0#8
  cursor := 0#8
  crc := 0#8
  rxBuf := []
  framesRx := 0
  framesRejected := 0
  framesTx := 0
  hasMsg := true
  hasSink := true
  input := []
  events := []
  results := []

end Sys2Proof.Machine
end

