-- ==== Sys2Proof/Machine/Flags.lean ====
section
/-! DEFINITION. The status side of the context: counter arithmetic and the result flags. -/

namespace Sys2Proof.Machine

/-- `inc(c)`: modulo `2^CNT_W` (10_state.md R34). -/
def inc (c : Count) : Count := c + 1

/-- INIT's `ok` (43_context_ops.md R201): both collaborators are supplied. -/
def initOk (hasMsg hasSink : Bool) : Bool := hasMsg && hasSink

/-- SEND's `ok` (42_frame_encoder.md R181): neither of the two failure conditions holds. -/
def sendOk (n : TxLen) (present : Bool) : Bool :=
  !(decide (Config.maxPayload < n.toNat) || (!present && n != 0))

/-- The number of an anomaly (60_exceptions.md R220, D16); no register holds it. -/
def Anomaly.code : Anomaly → Nat
  | .syncLoss _ => 0
  | .lengthOverflow _ => 1
  | .checksumMismatch _ _ => 2
  | .encodeRejected _ _ => 3
  | .initRejected _ _ => 4

end Sys2Proof.Machine
end

