-- ==== Sys2Proof/Machine/Operands.lean ====
section
/-! DEFINITION. The operand forms: the receive buffer and the view onto it, the payload of SEND, the
registers the decoder looks at. -/

namespace Sys2Proof.Machine

/-! ### The space RXBUF (20_memory.md R60, R61) -/

/-- The byte the parser wrote at an index, if it ever did. -/
def RxBuf.written (buf : RxBuf) (a : Nat) : Option Byte :=
  match buf with
  | [] => none
  | (k, v) :: rest => if a = k then some v else RxBuf.written rest a

/-- `rx_buf[a]`: what was written there last, else the free value (10_state.md R38, log entry 2). -/
def RxBuf.read (buf : RxBuf) (a : Nat) : Byte :=
  (RxBuf.written buf a).getD (Config.rxBufUnwritten a)

/-- Write one byte, keeping the indices strictly rising. -/
def RxBuf.write (buf : RxBuf) (a : Nat) (v : Byte) : RxBuf :=
  match buf with
  | [] => [(a, v)]
  | (k, w) :: rest =>
    if a < k then (a, v) :: (k, w) :: rest
    else if a = k then (a, v) :: rest
    else (k, w) :: RxBuf.write rest a v

/-- All indices are at least `lo` and below 250, and they rise strictly. -/
def RxBuf.wfFrom (lo : Nat) : RxBuf → Bool
  | [] => true
  | (k, _) :: rest => decide (lo ≤ k) && decide (k < Config.maxPayload) && RxBuf.wfFrom (k + 1) rest

/-- The canonical form of the buffer's list: strictly rising indices inside the space. -/
def RxBuf.wf (buf : RxBuf) : Bool := RxBuf.wfFrom 0 buf

/-- One byte of `rx_buf` in a state. -/
def State.rxByte (s : State) (a : Nat) : Byte := s.rxBuf.read a

/-- The first `k` bytes of `rx_buf`, from index 0: `rx_buf[0 .. k-1]`. -/
def State.rxView (s : State) (k : Nat) : List Byte := (List.range k).map s.rxByte

/-! ### The space TXPAY (R62) -/

/-- The `n` bytes SEND reads, index 0 first. -/
def txPayload (n : TxLen) (pay : List Byte) : List Byte := pay.take n.toNat

/-- The readable bytes of TXPAY: with `present = 0` the space does not exist. -/
def txReadable (present : Bool) (pay : List Byte) : Nat := if present then pay.length else 0

/-! ### The parser's decode -/

/-- The registers an RXDEC word is decoded under. -/
def State.decodeRegs (s : State) : DecodeRegs :=
  { cursor := s.cursor, msgLen := s.msgLen, crc := s.crc }

end Sys2Proof.Machine
end

