-- ==== Sys2Proof/Machine/Ops.lean ====
section
/-! DEFINITION. The operations the meanings are made of: the CRC, the writes of the context, the events,
`raise`, and the frame. -/

namespace Sys2Proof.Machine

/-! ### The CRC-8 engine's function (40_crc_engine.md) -/

/-- One step of the division, R120: shift left, and fold in the generator when bit 7 was set. PRESUMED:
the source names the parameters only, the algorithm is the spec's general knowledge (K1, log entry 11). -/
def crcStep (c : Byte) : Byte :=
  if c.getLsbD 7 then (c <<< 1) ^^^ Config.crcPoly else c <<< 1

/-- `crc8_update(running, byte)`, R120: eight steps. -/
def crc8Update (running byte : Byte) : Byte :=
  crcStep (crcStep (crcStep (crcStep (crcStep (crcStep (crcStep (crcStep (running ^^^ byte))))))))

/-- The fold of `crc8_update` over a sequence from a running value. -/
def crcFold (running : Byte) (data : List Byte) : Byte := data.foldl crc8Update running

/-- `crc8(data)`, R121. -/
def crc8 (data : List Byte) : Byte := crcFold Config.crcInit data

/-- The rows of the table `T` as R123 prints them. -/
def crcTableRows : List (List Nat) :=
  [[0x00, 0x07, 0x0E, 0x09, 0x1C, 0x1B, 0x12, 0x15, 0x38, 0x3F, 0x36, 0x31, 0x24, 0x23, 0x2A, 0x2D],
   [0x70, 0x77, 0x7E, 0x79, 0x6C, 0x6B, 0x62, 0x65, 0x48, 0x4F, 0x46, 0x41, 0x54, 0x53, 0x5A, 0x5D],
   [0xE0, 0xE7, 0xEE, 0xE9, 0xFC, 0xFB, 0xF2, 0xF5, 0xD8, 0xDF, 0xD6, 0xD1, 0xC4, 0xC3, 0xCA, 0xCD],
   [0x90, 0x97, 0x9E, 0x99, 0x8C, 0x8B, 0x82, 0x85, 0xA8, 0xAF, 0xA6, 0xA1, 0xB4, 0xB3, 0xBA, 0xBD]] ++
  [[0xC7, 0xC0, 0xC9, 0xCE, 0xDB, 0xDC, 0xD5, 0xD2, 0xFF, 0xF8, 0xF1, 0xF6, 0xE3, 0xE4, 0xED, 0xEA],
   [0xB7, 0xB0, 0xB9, 0xBE, 0xAB, 0xAC, 0xA5, 0xA2, 0x8F, 0x88, 0x81, 0x86, 0x93, 0x94, 0x9D, 0x9A],
   [0x27, 0x20, 0x29, 0x2E, 0x3B, 0x3C, 0x35, 0x32, 0x1F, 0x18, 0x11, 0x16, 0x03, 0x04, 0x0D, 0x0A],
   [0x57, 0x50, 0x59, 0x5E, 0x4B, 0x4C, 0x45, 0x42, 0x6F, 0x68, 0x61, 0x66, 0x73, 0x74, 0x7D, 0x7A]] ++
  [[0x89, 0x8E, 0x87, 0x80, 0x95, 0x92, 0x9B, 0x9C, 0xB1, 0xB6, 0xBF, 0xB8, 0xAD, 0xAA, 0xA3, 0xA4],
   [0xF9, 0xFE, 0xF7, 0xF0, 0xE5, 0xE2, 0xEB, 0xEC, 0xC1, 0xC6, 0xCF, 0xC8, 0xDD, 0xDA, 0xD3, 0xD4],
   [0x69, 0x6E, 0x67, 0x60, 0x75, 0x72, 0x7B, 0x7C, 0x51, 0x56, 0x5F, 0x58, 0x4D, 0x4A, 0x43, 0x44],
   [0x19, 0x1E, 0x17, 0x10, 0x05, 0x02, 0x0B, 0x0C, 0x21, 0x26, 0x2F, 0x28, 0x3D, 0x3A, 0x33, 0x34]] ++
  [[0x4E, 0x49, 0x40, 0x47, 0x52, 0x55, 0x5C, 0x5B, 0x76, 0x71, 0x78, 0x7F, 0x6A, 0x6D, 0x64, 0x63],
   [0x3E, 0x39, 0x30, 0x37, 0x22, 0x25, 0x2C, 0x2B, 0x06, 0x01, 0x08, 0x0F, 0x1A, 0x1D, 0x14, 0x13],
   [0xAE, 0xA9, 0xA0, 0xA7, 0xB2, 0xB5, 0xBC, 0xBB, 0x96, 0x91, 0x98, 0x9F, 0x8A, 0x8D, 0x84, 0x83],
   [0xDE, 0xD9, 0xD0, 0xD7, 0xC2, 0xC5, 0xCC, 0xCB, 0xE6, 0xE1, 0xE8, 0xEF, 0xFA, 0xFD, 0xF4, 0xF3]]

/-- The table `T` of the CRC engine (10_state.md R27, 40_crc_engine.md R123), the space CRCTAB. The
operations compute `crc8Update` by division (R124: the choice is invisible); that the table holds the same
function is an obligation. -/
def crcTable : List Byte := (crcTableRows.flatten).map (BitVec.ofNat 8)

/-- `T[i]`. -/
def crcTableAt (i : Byte) : Byte := crcTable.getD i.toNat 0#8

/-! ### Outcomes -/

/-- Run `f` on the state an outcome answers; a fault or a refusal stays. -/
def andThen (o : Outcome) (f : State → Outcome) : Outcome :=
  match o with
  | .next s => f s
  | .fault r => .fault r
  | .refused r => .refused r

/-- `require ctx.ready = 1`, else `refuse` (43_context_ops.md R210). -/
def whenReady (s : State) (o : Outcome) : Outcome :=
  if s.ready then o else .refused .notReady

/-- A transition runs on a ready context when it is the one selected (30_encoding.md R98). -/
def whenSelected (s : State) (selected : Prop) [Decidable selected] (o : Outcome) : Outcome :=
  whenReady s (if selected then o else .refused .transitionNotSelected)

/-! ### Writes of the context -/

/-- `ctx.crc <- crc8_update(ctx.crc, b)`. -/
def State.foldCrc (s : State) (b : Byte) : State := { s with crc := crc8Update s.crc b }

/-- `ctx.state <- st`. -/
def State.goto (s : State) (st : ParserState) : State := { s with state := st }

/-- `inc(ctx.frames_rx)` (10_state.md R31). -/
def State.countReceived (s : State) : State := { s with framesRx := inc s.framesRx }

/-- `inc(ctx.frames_rejected)` (R32). -/
def State.countRejected (s : State) : State := { s with framesRejected := inc s.framesRejected }

/-- `inc(ctx.frames_tx)` (R33). -/
def State.countSent (s : State) : State := { s with framesTx := inc s.framesTx }

/-- The five parser registers as INIT and RESET leave them (R38). -/
def State.clearParser (s : State) : State :=
  { s with state := .idle, msgId := 0#8, msgLen := 0#8, cursor := 0#8, crc := 0#8 }

/-- `rx_buf[ctx.cursor] <- b` with the fold and the advance of the cursor, the acts that T_DATA and
T_DATAEND share (41_frame_parser.md R147, R148). -/
def State.storeByte (s : State) (b : Byte) : State :=
  { s with rxBuf := s.rxBuf.write s.cursor.toNat b, crc := crc8Update s.crc b, cursor := s.cursor + 1#8 }

/-- `storeByte`, inside the space RXBUF (20_memory.md R68). -/
def storePayload (b : Byte) (s : State) : Outcome :=
  if s.cursor.toNat < Config.maxPayload then .next (s.storeByte b)
  else .fault (.rxBufIndexOutside s.cursor.toNat)

/-! ### Outputs -/

/-- `emit`: append an event to the output trace (00_scope.md R13). -/
def State.emit (s : State) (e : Event) : State := { s with events := s.events ++ [e] }

/-- `return v`: the operation's result. -/
def State.answer (s : State) (r : Result) : State := { s with results := s.results ++ [r] }

/-- The message event of the frame just accepted (41_frame_parser.md R150): the view of `rx_buf`. -/
def State.messageEvent (s : State) : Event := .msg s.msgId s.msgLen (s.rxView s.msgLen.toNat)

/-- `emit Msg(...)`, the view inside the space RXBUF (20_memory.md R68). -/
def emitMessage (s : State) : Outcome :=
  if s.msgLen.toNat ≤ Config.maxPayload then .next (s.emit s.messageEvent)
  else .fault (.rxBufIndexOutside (s.msgLen.toNat - 1))

/-! ### Anomalies -/

/-- `raise A(info)`: exactly the effects 60_exceptions.md R230 lists for the anomaly. Nothing is saved and
nothing but `state` is redirected; there is no handler and no return from one (R231). -/
def raise (a : Anomaly) (s : State) : State :=
  match a with
  | .syncLoss _ => s
  | .lengthOverflow b => (({ s with msgLen := b }.foldCrc b).countRejected).goto .idle
  | .checksumMismatch _ _ => s.countRejected.goto .idle
  | .encodeRejected _ _ => s.answer (.ok false)
  | .initRejected _ _ => s.answer (.ok false)

/-! ### The frame -/

/-- `frame(m, p)`, the valid frame of an id and a payload (30_encoding.md R97). -/
def frameBytes (id : Byte) (payload : List Byte) : List Byte :=
  let body := [id, BitVec.ofNat 8 payload.length] ++ payload
  [Config.sync] ++ body ++ [crc8 body]

/-- The bytes of a frame as it stands on the wire, whatever its checksum byte (R90). -/
def wireBytes (id : Byte) (payload : List Byte) (check : Byte) : List Byte :=
  [Config.sync, id, BitVec.ofNat 8 payload.length] ++ payload ++ [check]

/-! ### Who may issue what -/

/-- 70_reset_and_hazards.md R272: from inside a message event SEND, the counter reads, CRCU and CRC8; from
inside a sink event CRCU and CRC8 only; the owner anything. -/
def Origin.permits : Origin → Instr → Bool
  | .owner, _ => true
  | .inMessageEvent, .send _ _ _ _ => true
  | .inMessageEvent, .rdrx => true
  | .inMessageEvent, .rdrej => true
  | .inMessageEvent, .rdtx => true
  | .inMessageEvent, .crc8 _ => true
  | .inMessageEvent, .crcu _ _ => true
  | .inMessageEvent, _ => false
  | .inSinkEvent, .crc8 _ => true
  | .inSinkEvent, .crcu _ _ => true
  | .inSinkEvent, _ => false

/-! ### Fetch -/

/-- The instruction a transfer carries: an operation word, a received byte under the parser's registers
(30_encoding.md R98: the state half of the RXDEC word is the engine's register), or the bytes of the wire. Only
an operation word can encode nothing. -/
def decodeTransfer (s : State) (t : Transfer) : Except DecodeError Instr :=
  match t.payload with
  | .op bytes => decode .op s.decodeRegs bytes
  | .rx b => decode .rxdec s.decodeRegs [b, s.state.code]
  | .wire bytes => .ok (decodeStream bytes)

/-- The transfer is taken: each is consumed by exactly one step (20_memory.md R63). -/
def State.popInput (s : State) : State := { s with input := s.input.tail }

/-- Present a transfer of the owner before any other. -/
def State.present (s : State) (p : Payload) : State :=
  { s with input := { origin := .owner, payload := p } :: s.input }

/-- `s` with the registers that select a transition set to what a table word is decoded under: `state`, in
`GotLen` the cursor and the length, in `GotPayload` the running CRC (log entries 24 and 27). -/
def State.selecting (s : State) (state : ParserState) : State :=
  match state with
  | .gotLen => { s with state := .gotLen, cursor := (tableRegs .gotLen).cursor, msgLen := (tableRegs .gotLen).msgLen }
  | .gotPayload => { s with state := .gotPayload, crc := (tableRegs .gotPayload).crc }
  | other => { s with state := other }

end Sys2Proof.Machine
end

