-- ==== Sys2Proof/Machine/ContextOps.lean ====
section
/-! DEFINITION. The context operations: INIT, RESET, RDRX, RDREJ, RDTX (43_context_ops.md). -/

namespace Sys2Proof.Machine

/-- INIT (R200), also on a ready context (R202, log entry 12); with a collaborator absent nothing changes
(R201, log entry 13). `rx_buf` is not written. -/
def execInit (hasMsg hasSink : Bool) (s : State) : Outcome :=
  if initOk hasMsg hasSink then
    .next ({ s.clearParser with
      framesRx := 0, framesRejected := 0, framesTx := 0
      hasMsg := true, hasSink := true, ready := true }.answer (.ok true))
  else .next (raise (.initRejected hasMsg hasSink) s)

/-- RESET (R203): the five parser registers (90_conflicts.md C1, log entry 14). -/
def execReset (s : State) : Outcome := whenReady s (.next s.clearParser)

/-- RDRX (R206). -/
def execRdrx (s : State) : Outcome := whenReady s (.next (s.answer (.count s.framesRx)))

/-- RDREJ (R207). -/
def execRdrej (s : State) : Outcome := whenReady s (.next (s.answer (.count s.framesRejected)))

/-- RDTX (R208). -/
def execRdtx (s : State) : Outcome := whenReady s (.next (s.answer (.count s.framesTx)))

end Sys2Proof.Machine
end

