-- ==== Sys2Proof/Machine/CrcEngine.lean ====
section
/-! DEFINITION. The CRC engine's operations: CRCU and CRC8. They need no ready context (43_context_ops.md
R210) and touch no field of it. -/

namespace Sys2Proof.Machine

/-- CRCU (40_crc_engine.md R120). -/
def execCrcu (running byte : Byte) (s : State) : Outcome :=
  .next (s.answer (.byte (crc8Update running byte)))

/-- CRC8 (R121). -/
def execCrc8 (data : List Byte) (s : State) : Outcome :=
  .next (s.answer (.byte (crc8 data)))

end Sys2Proof.Machine
end

