-- ==== Sys2Proof/Machine/Encoder.lean ====
section
/-! DEFINITION. The frame encoder: SEND (42_frame_encoder.md). -/

namespace Sys2Proof.Machine

/-- The loop of R180: append each payload byte and fold it into the local checksum `c`, which is no
register (R184); at the end append the checksum. -/
def assemble (bytes : List Byte) (c : Byte) : List Byte → List Byte
  | [] => bytes ++ [c]
  | d :: rest => assemble (bytes ++ [d]) (crc8Update c d) rest

/-- The burst of a SEND: sync, id and length, then the loop. -/
def sendBurst (id : Byte) (n : TxLen) (pay : List Byte) : List Byte :=
  let len : Byte := BitVec.ofNat 8 n.toNat
  assemble [Config.sync, id, len] (crc8Update (crc8Update Config.crcInit id) len) (txPayload n pay)

/-- SEND (R180): the argument checks first (R181), then one burst to the sink and the count. A payload with
fewer than `n` bytes is a breach of the caller's duty (70_reset_and_hazards.md R271, log entry 18). -/
def execSend (id : Byte) (n : TxLen) (present : Bool) (pay : List Byte) (s : State) : Outcome :=
  whenReady s
    (if sendOk n present then
      if txReadable present pay < n.toNat then .refused .payloadTooShort
      else .next (((s.emit (.sink (sendBurst id n pay))).countSent).answer (.ok true))
    else .next (raise (.encodeRejected n present) s))

end Sys2Proof.Machine
end

