-- ==== Sys2Proof/Machine/Parser.lean ====
section
/-! DEFINITION. The frame parser: the ten transitions (41_frame_parser.md R141 to R151), RXB as the one
function of R149, and RXS. -/

namespace Sys2Proof.Machine

/-! ### The transitions, a rule each -/

/-- T_SYNC (R141); the cursor is zeroed here (90_conflicts.md C4, log entry 15). -/
def execTSync (s : State) : Outcome :=
  whenSelected s (s.state = .idle)
    (.next { s with crc := Config.crcInit, cursor := 0#8, state := .gotSync })

/-- T_SKIP (R142): the anomaly SyncLoss, which leaves no trace. -/
def execTSkip (b : Byte) (s : State) : Outcome :=
  whenSelected s (s.state = .idle ∧ b ≠ Config.sync)
    (.next (raise (.syncLoss b) s))

/-- T_ID (R143). -/
def execTId (b : Byte) (s : State) : Outcome :=
  whenSelected s (s.state = .gotSync)
    (.next (({ s with msgId := b }.foldCrc b).goto .gotId))

/-- T_LEN (R144). -/
def execTLen (b : Byte) (s : State) : Outcome :=
  whenSelected s (s.state = .gotId ∧ 1 ≤ b.toNat ∧ b.toNat ≤ Config.maxPayload)
    (.next (({ s with msgLen := b }.foldCrc b).goto .gotLen))

/-- T_LEN0 (R145). -/
def execTLen0 (s : State) : Outcome :=
  whenSelected s (s.state = .gotId)
    (.next (({ s with msgLen := 0#8 }.foldCrc 0#8).goto .gotPayload))

/-- T_LENOVF (R146): the anomaly LengthOverflow; its two register writes come with it (D30, log entry
21). -/
def execTLenOvf (b : Byte) (s : State) : Outcome :=
  whenSelected s (s.state = .gotId ∧ Config.maxPayload < b.toNat)
    (.next (raise (.lengthOverflow b) s))

/-- T_DATA (R147). The register condition is R149's: not the last byte (log entry 9). -/
def execTData (b : Byte) (s : State) : Outcome :=
  whenSelected s (s.state = .gotLen ∧ s.cursor + 1#8 ≠ s.msgLen)
    (andThen (storePayload b s) fun t => .next (t.goto .gotLen))

/-- T_DATAEND (R148). -/
def execTDataEnd (b : Byte) (s : State) : Outcome :=
  whenSelected s (s.state = .gotLen ∧ s.cursor + 1#8 = s.msgLen)
    (andThen (storePayload b s) fun t => .next (t.goto .gotPayload))

/-- T_ACCEPT (R150): the counter, then `Idle`, then the event (D11, log entry 20). -/
def execTAccept (b : Byte) (s : State) : Outcome :=
  whenSelected s (s.state = .gotPayload ∧ b = s.crc)
    (emitMessage (s.countReceived.goto .idle))

/-- T_REJECT (R151): the anomaly ChecksumMismatch. -/
def execTReject (b : Byte) (s : State) : Outcome :=
  whenSelected s (s.state = .gotPayload ∧ b ≠ s.crc)
    (.next (raise (.checksumMismatch b s.crc) s))

/-! ### RXB and RXS -/

/-- One received byte on a ready context: the pseudocode of R149. -/
def parserByte (b : Byte) (s : State) : Outcome :=
  match s.state with
  | .idle =>
    if b = Config.sync then .next { s with crc := Config.crcInit, cursor := 0#8, state := .gotSync }
    else .next (s.goto .idle)
  | .gotSync => .next (({ s with msgId := b }.foldCrc b).goto .gotId)
  | .gotId =>
    let t := { s with msgLen := b }.foldCrc b
    if Config.maxPayload < b.toNat then .next (t.countRejected.goto .idle)
    else if b = 0#8 then .next (t.goto .gotPayload)
    else .next (t.goto .gotLen)
  | .gotLen =>
    andThen (storePayload b s) fun t =>
      .next (t.goto (if t.cursor = t.msgLen then .gotPayload else .gotLen))
  | .gotPayload =>
    if b = s.crc then emitMessage (s.countReceived.goto .idle)
    else .next (s.countRejected.goto .idle)

/-- `for i from 0 to k-1: RXB b_i` on a ready context (R153). -/
def parserBytes : List Byte → State → Outcome
  | [], s => .next s
  | b :: rest, s => andThen (parserByte b s) (parserBytes rest)

/-- RXB (R140, R149). -/
def execRxb (b : Byte) (s : State) : Outcome := whenReady s (parserByte b s)

/-- RXS (R153). It is one step, so an operation that a collaborator issues from inside an event of one of its bytes
follows all of them (DESIGN CHOICE, log entry 31, unsafe); the owner may cut the sequence instead. -/
def execRxs (bytes : List Byte) (s : State) : Outcome := whenReady s (parserBytes bytes s)

end Sys2Proof.Machine
end

