-- ==== Sys2Proof/Machine/Wire.lean ====
section
/-! DEFINITION. The wire format FRAME (30_encoding.md R90) as it arrives. -/

namespace Sys2Proof.Machine

/-- FRAME: the engine has no operation of that name; what it does when a frame arrives is to consume its
bytes in wire order, one transition each (R96, R98, 41_frame_parser.md R153, R155). A length byte of 251 to
255 is rejected where it arrives, and the bytes behind it are examined in `Idle` (R93, R99). DESIGN CHOICE, log
entry 7. One step, as RXS is (log entry 31). -/
def execFrame (id : Byte) (payload : List Byte) (check : Byte) (s : State) : Outcome :=
  whenReady s (parserBytes (wireBytes id payload check) s)

end Sys2Proof.Machine
end

