-- ==== Sys2Proof/Machine/Dispatch.lean ====
section
/-! DEFINITION. One arm for each row of spec/opcode_table.json. -/

namespace Sys2Proof.Machine

def exec (i : Instr) (s : State) : Host.Outcome State Fault Refusal :=
  match i with
  | .init hasMsg hasSink => Sys2Proof.Machine.execInit hasMsg hasSink s
  | .rxb b => Sys2Proof.Machine.execRxb b s
  | .rxs bytes => Sys2Proof.Machine.execRxs bytes s
  | .reset => Sys2Proof.Machine.execReset s
  | .send id n present pay => Sys2Proof.Machine.execSend id n present pay s
  | .rdrx => Sys2Proof.Machine.execRdrx s
  | .rdrej => Sys2Proof.Machine.execRdrej s
  | .rdtx => Sys2Proof.Machine.execRdtx s
  | .crc8 data => Sys2Proof.Machine.execCrc8 data s
  | .crcu running byte => Sys2Proof.Machine.execCrcu running byte s
  | .tSync => Sys2Proof.Machine.execTSync s
  | .tSkip b => Sys2Proof.Machine.execTSkip b s
  | .tId b => Sys2Proof.Machine.execTId b s
  | .tLen0 => Sys2Proof.Machine.execTLen0 s
  | .tLen b => Sys2Proof.Machine.execTLen b s
  | .tLenOvf b => Sys2Proof.Machine.execTLenOvf b s
  | .tData b => Sys2Proof.Machine.execTData b s
  | .tDataEnd b => Sys2Proof.Machine.execTDataEnd b s
  | .tAccept b => Sys2Proof.Machine.execTAccept b s
  | .tReject b => Sys2Proof.Machine.execTReject b s
  | .frame id payload check => Sys2Proof.Machine.execFrame id payload check s

end Sys2Proof.Machine
end

