-- ==== Sys2Proof/Machine/Step.lean ====
section
/-! DEFINITION. One step: take the next transfer, decode it, run it. -/

namespace Sys2Proof.Machine

/-- One step of the engine (00_scope.md R10): it runs the operation presented next, and with none presented
it is inert (60_exceptions.md R248; log entry 5). -/
def step (s : State) : Host.Outcome State Fault Refusal :=
  match s.input with
  | [] => .next s
  | t :: _ =>
    match decodeTransfer s t with
    | .error e => .refused (.undecodable e)
    | .ok i =>
      if t.origin.permits i then exec i s.popInput
      else .refused (.insideEvent t.origin)

/-- `s` with a word of spec/opcode_table.json presented as the next transfer. A transition's word is a byte
on the `rx` channel with the parser's registers set to select it; one whose state half is no state (U20) is
presented as an empty operation word, which is refused. A frame is presented whole, and a wire word that is none
as its own bytes. -/
def State.withFetchWord (s : State) (nbits w : Nat) : State :=
  match tableFormat nbits w with
  | .op => s.present (.op (tableBytes nbits w))
  | .wire =>
    match decodeTableWord nbits w with
    | some i => s.present (.wire (encode i))
    | none => s.present (.wire (bytesOfNat ((nbits + 7) / 8) w))
  | .rxdec =>
    match tableState w with
    | some state => (s.selecting state).present (.rx (BitVec.ofNat 8 w))
    | none => s.present (.op [])

end Sys2Proof.Machine
end

