-- ==== Sys2Proof/Safety.lean ====
section
/-! DEFINITION. What counts as a safe state, and what an owner can observe, in the terms the statements use. -/

namespace Sys2Proof.Machine

/-- The invariants of the parser state, the table of 10_state.md R28; and, from its consequences, that the
bytes of the frame in progress have been written (no free value is among them). -/
def State.ParserInv (s : State) : Prop :=
  match s.state with
  | .idle => True
  | .gotSync => s.cursor = 0#8 ∧ s.crc = 0#8
  | .gotId => s.cursor = 0#8 ∧ s.crc = crc8 [s.msgId]
  | .gotLen =>
    1 ≤ s.msgLen.toNat ∧ s.msgLen.toNat ≤ 250 ∧ s.cursor.toNat < s.msgLen.toNat ∧
      s.crc = crc8 ([s.msgId, s.msgLen] ++ s.rxView s.cursor.toNat) ∧
      ∀ a < s.cursor.toNat, (s.rxBuf.written a).isSome
  | .gotPayload =>
    s.msgLen.toNat ≤ 250 ∧ s.cursor = s.msgLen ∧
      s.crc = crc8 ([s.msgId, s.msgLen] ++ s.rxView s.cursor.toNat) ∧
      ∀ a < s.cursor.toNat, (s.rxBuf.written a).isSome

/-- The invariant of the machine: the receive buffer is in canonical form, and a ready context has both
collaborators (10_state.md R35) and satisfies R28. On a context that is not ready nothing more is known
(R38). -/
def State.Inv (s : State) : Prop :=
  s.rxBuf.wf = true ∧ (s.ready = true → s.hasMsg = true ∧ s.hasSink = true ∧ s.ParserInv)

/-- How many bytes of `rx_buf` belong to the frame in progress. -/
def State.held (s : State) : Nat :=
  match s.state with
  | .idle => 0
  | .gotSync => 0
  | .gotId => 0
  | .gotLen => s.cursor.toNat
  | .gotPayload => s.cursor.toNat

/-- What leaves the engine (00_scope.md R11): events and results, and the three counters, which the owner
can read at any moment. -/
structure Observation where
  events         : List Event
  results        : List Result
  framesRx       : Count
  framesRejected : Count
  framesTx       : Count
deriving DecidableEq, Repr

/-- What the owner has seen, or could by reading the counters. -/
def State.observe (s : State) : Observation where
  events := s.events
  results := s.results
  framesRx := s.framesRx
  framesRejected := s.framesRejected
  framesTx := s.framesTx

/-- Two outcomes the owner cannot tell apart. -/
def Indistinguishable (x y : Outcome) : Prop :=
  match x, y with
  | .next s, .next t => s.observe = t.observe
  | .fault p, .fault q => p = q
  | .refused p, .refused q => p = q
  | _, _ => False

/-- The message events of a trace. -/
def messagesIn (events : List Event) : Nat :=
  events.countP fun e => match e with | .msg _ _ _ => true | .sink _ => false

/-- The sink events of a trace. -/
def sinksIn (events : List Event) : Nat :=
  events.countP fun e => match e with | .msg _ _ _ => false | .sink _ => true

end Sys2Proof.Machine
end

