-- ==== Sys2Proof/Certificates/Slice0/Obligations.lean ====
section
/-! DEFINITION. The statements. Each docstring names the rule of the spec it comes from. -/

open Sys2Proof Sys2Proof.Machine

/-! ### The CRC-8 engine -/

/-- 40_crc_engine.md R120: CRCU returns eight steps of the left-shifting division of `running ^ byte` with
feedback `0x07`, on a context ready or not, and touches no field of it. The bit-level algorithm is the spec's
general knowledge (K1, log entry 11). -/
def Obligations.CrcuReturnsEightDivisionSteps : Prop :=
  ∀ (running byte : Byte) (s : State),
    exec (.crcu running byte) s = .next { s with
      results := s.results ++
        [.byte ((fun c : Byte => if c.getLsbD 7 then (c <<< 1) ^^^ 0x07#8 else c <<< 1)^[8]
          (running ^^^ byte))] }

/-- R121: CRC8 returns the fold of `crc8_update` from `0x00`, the sequence in order. Of the empty sequence it is
`0x00`, which R121 marks as its own derivation; that its example comes out as `0x40` rests on the bit-level
algorithm, the spec's general knowledge (K1, log entry 11, PRESUMED). -/
def Obligations.Crc8ReturnsTheFoldOfItsBytes : Prop :=
  (∀ (data : List Byte) (s : State),
    exec (.crc8 data) s = .next { s with
      results := s.results ++ [.byte (data.foldl crc8Update 0x00#8)] }) ∧
  (∀ s : State, exec (.crc8 []) s = .next { s with results := s.results ++ [.byte 0x00#8] }) ∧
  (∀ s : State, exec (.crc8 [0x10#8, 0x03#8, 0x01#8, 0x02#8, 0x03#8]) s =
    .next { s with results := s.results ++ [.byte 0x40#8] })

/-- R123, R124: the table `T` has 256 entries, entry `i` is `crc8_update(0x00, i)`, and the table form
computes the update on every operand pair (L1). The spec computed the table; no source prints it. -/
def Obligations.CrcTableHoldsTheUpdate : Prop :=
  crcTable.length = 256 ∧ (∀ i : Byte, crcTableAt i = crc8Update 0x00#8 i) ∧
  ∀ running byte : Byte, crc8Update running byte = crcTableAt (running ^^^ byte)

/-- R125 L2, L3, L9: the table is linear, and the update is a bijection in either argument, so that exactly
one checksum byte matches a running value. -/
def Obligations.CrcUpdateIsLinearAndBijective : Prop :=
  (∀ a b : Byte, crc8Update 0x00#8 (a ^^^ b) = crc8Update 0x00#8 a ^^^ crc8Update 0x00#8 b) ∧
  (∀ running : Byte, Function.Bijective (crc8Update running)) ∧
  (∀ byte : Byte, Function.Bijective fun running => crc8Update running byte)

/-- R125 L5, L6: a sequence with its own CRC appended checks to zero, and leading zero bytes are not seen. -/
def Obligations.CrcSelfCheckAndLeadingZeros : Prop :=
  (∀ data : List Byte, crc8 (data ++ [crc8 data]) = 0x00#8) ∧
  (∀ (k : Nat) (data : List Byte), crc8 (List.replicate k 0x00#8 ++ data) = crc8 data)

/-- R125 L7, for any change of one byte and so for every single-bit flip: the CRC changes. -/
def Obligations.OneChangedByteChangesTheCrc : Prop :=
  ∀ (before after : List Byte) (x y : Byte), x ≠ y →
    crc8 (before ++ [x] ++ after) ≠ crc8 (before ++ [y] ++ after)

/-- R125 L8: two flipped bits exactly 127 bit positions apart (bit 7 of a byte first) leave the CRC as it
was, wherever they stand. -/
def Obligations.TwoBits127ApartAreNotSeen : Prop :=
  (∀ (before between after : List Byte) (x y : Byte), between.length = 14 →
    crc8 (before ++ [x ^^^ 0x80#8] ++ between ++ [y ^^^ 0x01#8] ++ after) =
      crc8 (before ++ [x] ++ between ++ [y] ++ after)) ∧
  (∀ (before between after : List Byte) (x y : Byte) (k : Nat), between.length = 15 → k < 7 →
    crc8 (before ++ [x ^^^ (0x01#8 <<< k)] ++ between ++ [y ^^^ (0x02#8 <<< k)] ++ after) =
      crc8 (before ++ [x] ++ between ++ [y] ++ after))

/-! ### Encoding and the step -/

/-- The decoder gives every well-formed instruction back from its encoding, under any registers that select
it, with any filler of zeros behind it. The operands' layout is the model's (log entry 6). -/
def Obligations.DecodingAnEncodingGivesItBack : Prop :=
  ∀ (i : Instr) (regs : DecodeRegs) (k : Nat), i.wellFormed = true → i.selectedBy regs = true →
    decode i.format regs (encode i ++ List.replicate k 0#8) = .ok i

/-- The decoder accepts nothing else: what it decodes is the encoding of a well-formed instruction of that
format which the registers select, with zeros behind it (30_encoding.md R98 to R100). -/
def Obligations.DecoderAcceptsOnlyEncodings : Prop :=
  ∀ (fmt : Format) (regs : DecodeRegs) (bytes : List Byte) (i : Instr),
    decode fmt regs bytes = .ok i →
      i.format = fmt ∧ i.wellFormed = true ∧ i.selectedBy regs = true ∧
        ∃ k, bytes = encode i ++ List.replicate k 0#8

/-- Words written out from spec/opcode_table.json decode to the instructions they stand for. -/
def Obligations.WordsOfTheTableDecode : Prop :=
  decodeTableWord 8 0b0011 = some .reset ∧ decodeTableWord 8 0b0101 = some .rdrx ∧
  decodeTableWord 16 0b00010100101 = some .tSync ∧
  decodeTableWord 16 0b00101000010 = some (.tId 0x42#8) ∧
  decodeTableWord 16 0b01000000000 = some .tLen0 ∧
  decodeTableWord 16 0b01011111010 = some (.tLen 0xFA#8) ∧
  decodeTableWord 16 0b01011111011 = some (.tLenOvf 0xFB#8) ∧
  decodeTableWord 32 0x570010A5 = some (.frame 0x10#8 [] 0x57#8)

/-- 30_encoding.md R100 (the numbers are decision D17): selectors 10 to 15 select nothing; a transfer with
one is refused. -/
def Obligations.ReservedSelectorsAreRefused : Prop :=
  ∀ (op : Byte) (rest : List Byte) (s : State), 10 ≤ op.toNat → op.toNat ≤ 15 →
    step (s.present (.op (op :: rest))) = .refused (.undecodable .reservedSelector)

/-- A step takes the next transfer and runs the instruction its bytes decode to; a byte on the `rx` channel is
decoded under `state`, `cursor`, `msg_len` and `crc` (30_encoding.md R98), and bytes of the wire that are no whole
frame are RXS of them (log entry 7). -/
def Obligations.StepRunsTheDecodedTransfer : Prop :=
  ∀ (s : State) (t : Transfer) (rest : List Transfer) (i : Instr), s.input = t :: rest →
    (match t.payload with
      | .op bytes => decode .op s.decodeRegs bytes
      | .rx b => decode .rxdec s.decodeRegs [b, s.state.code]
      | .wire bytes => .ok (decodeStream bytes)) = .ok i →
    t.origin.permits i = true →
    step s = exec i { s with input := rest }

/-- 41_frame_parser.md R161, 60_exceptions.md R248: with nothing presented the engine does nothing. -/
def Obligations.NothingPresentedNothingChanges : Prop :=
  ∀ s : State, s.input = [] → step s = .next s

/-- 70_reset_and_hazards.md R272 (decision D12): from inside a message event RXB, RXS, RESET and INIT are
refused and SEND, the counter reads, CRCU and CRC8 run as the owner's would; from inside a sink event CRCU and
CRC8 run and all others are refused. -/
def Obligations.OperationsFromInsideAnEvent : Prop :=
  ∀ (s : State) (i : Instr), i.wellFormed = true → i.format = .op →
    (let inside (o : Origin) : State := { s with input := { origin := o, payload := .op (encode i) } :: s.input }
     (step (inside .inMessageEvent) =
        match i with
        | .send _ _ _ _ => exec i s
        | .rdrx => exec i s
        | .rdrej => exec i s
        | .rdtx => exec i s
        | .crc8 _ => exec i s
        | .crcu _ _ => exec i s
        | _ => .refused (.insideEvent .inMessageEvent)) ∧
     (step (inside .inSinkEvent) =
        match i with
        | .crc8 _ => exec i s
        | .crcu _ _ => exec i s
        | _ => .refused (.insideEvent .inSinkEvent)))

/-! ### The transitions -/

/-- 30_encoding.md R98, 41_frame_parser.md R140, R149: on a ready context every byte drives exactly one of
the ten transitions, among those whose word carries the byte, and RXB does what that transition does. -/
def Obligations.EveryByteDrivesExactlyOneTransition : Prop :=
  ∀ (s : State) (b : Byte), s.ready = true →
    ∃ i : Instr,
      (i.format = .rxdec ∧ i.wellFormed = true ∧ (encode i).head? = some b ∧
        exec i s ≠ .refused .transitionNotSelected) ∧
      exec (.rxb b) s = exec i s ∧
      ∀ j : Instr, j.format = .rxdec → j.wellFormed = true → (encode j).head? = some b →
        exec j s ≠ .refused .transitionNotSelected → j = i

/-- R141 (the cursor by decision D9, log entry 15): `SYNC` in `Idle`. -/
def Obligations.SyncByteStartsAFrame : Prop :=
  ∀ s : State, s.ready = true → s.state = .idle →
    let t : State := { s with crc := 0x00#8, cursor := 0#8, state := .gotSync }
    exec (.rxb 0xA5#8) s = .next t ∧ exec .tSync s = .next t

/-- R142: any other byte in `Idle` leaves the context equal, field for field. -/
def Obligations.OtherByteInIdleIsDiscarded : Prop :=
  ∀ (s : State) (b : Byte), s.ready = true → s.state = .idle → b ≠ 0xA5#8 →
    exec (.rxb b) s = .next s ∧ exec (.tSkip b) s = .next s

/-- R143: the byte after the sync marker is the message-id, `0xA5` and `0xFF` included. -/
def Obligations.IdByteIsStoredAndFolded : Prop :=
  ∀ (s : State) (b : Byte), s.ready = true → s.state = .gotSync →
    let t : State := { s with msgId := b, crc := crc8Update s.crc b, state := .gotId }
    exec (.rxb b) s = .next t ∧ exec (.tId b) s = .next t

/-- R144: a length from 1 to 250; under the invariant the payload then starts at `cursor = 0` (10_state.md R28). -/
def Obligations.LegalLengthOpensThePayload : Prop :=
  ∀ (s : State) (b : Byte), s.ready = true → s.state = .gotId → 1 ≤ b.toNat → b.toNat ≤ 250 →
    let t : State := { s with msgLen := b, crc := crc8Update s.crc b, state := .gotLen }
    exec (.rxb b) s = .next t ∧ exec (.tLen b) s = .next t ∧ (s.Inv → t.cursor = 0#8)

/-- R145: a length of 0 skips the payload. -/
def Obligations.ZeroLengthSkipsThePayload : Prop :=
  ∀ s : State, s.ready = true → s.state = .gotId →
    let t : State := { s with msgLen := 0x00#8, crc := crc8Update s.crc 0x00#8, state := .gotPayload }
    exec (.rxb 0x00#8) s = .next t ∧ exec .tLen0 s = .next t

/-- R146, 60_exceptions.md R230 row LengthOverflow (its two register writes by decision D30, log entry 21): a
length of 251 to 255 rejects the frame at once, with no event. -/
def Obligations.OversizedLengthIsRejectedAtOnce : Prop :=
  ∀ (s : State) (b : Byte), s.ready = true → s.state = .gotId → 251 ≤ b.toNat →
    let t : State := { s with
      msgLen := b, crc := crc8Update s.crc b, framesRejected := s.framesRejected + 1, state := .idle }
    exec (.rxb b) s = .next t ∧ exec (.tLenOvf b) s = .next t

/-- R147: a payload byte that is not the last. The premise on `msg_len` is 10_state.md R28's; under it the
byte goes to an index of at most 248. Every byte of `rx_buf` but the one at `cursor` reads as before. -/
def Obligations.PayloadByteIsStored : Prop :=
  ∀ (s : State) (b : Byte), s.ready = true → s.state = .gotLen → s.msgLen.toNat ≤ 250 →
    s.cursor.toNat + 1 < s.msgLen.toNat →
    let t : State := { s with
      rxBuf := s.rxBuf.write s.cursor.toNat b, crc := crc8Update s.crc b, cursor := s.cursor + 1, state := .gotLen }
    exec (.rxb b) s = .next t ∧ exec (.tData b) s = .next t ∧ s.cursor.toNat ≤ 248 ∧
      t.rxByte s.cursor.toNat = b ∧ ∀ a, a ≠ s.cursor.toNat → t.rxByte a = s.rxByte a

/-- R148: the last payload byte, at an index of at most 249 (10_state.md R28's premise on `msg_len`); the
cursor, one more than before, is then `msg_len`. -/
def Obligations.LastPayloadByteCompletesThePayload : Prop :=
  ∀ (s : State) (b : Byte), s.ready = true → s.state = .gotLen → s.msgLen.toNat ≤ 250 →
    s.cursor.toNat + 1 = s.msgLen.toNat →
    let t : State := { s with
      rxBuf := s.rxBuf.write s.cursor.toNat b, crc := crc8Update s.crc b, cursor := s.cursor + 1, state := .gotPayload }
    exec (.rxb b) s = .next t ∧ exec (.tDataEnd b) s = .next t ∧
      t.cursor = s.msgLen ∧ s.cursor.toNat ≤ 249 ∧
      t.rxByte s.cursor.toNat = b ∧ ∀ a, a ≠ s.cursor.toNat → t.rxByte a = s.rxByte a

/-- R150 (one step, so the order of its effects, decision D11, is not in question): the matching checksum
byte counts the frame and emits one message event with the view of `rx_buf` from index 0. The premise on
`msg_len` is 10_state.md R28's. -/
def Obligations.MatchingChecksumAcceptsTheFrame : Prop :=
  ∀ s : State, s.ready = true → s.state = .gotPayload → s.msgLen.toNat ≤ 250 →
    let t : State := { s with
      framesRx := s.framesRx + 1, state := .idle
      events := s.events ++ [.msg s.msgId s.msgLen ((List.range s.msgLen.toNat).map s.rxByte)] }
    exec (.rxb s.crc) s = .next t ∧ exec (.tAccept s.crc) s = .next t

/-- R151, 60_exceptions.md R230 row ChecksumMismatch: any other byte rejects the frame, with no event. -/
def Obligations.WrongChecksumRejectsTheFrame : Prop :=
  ∀ (s : State) (b : Byte), s.ready = true → s.state = .gotPayload → b ≠ s.crc →
    let t : State := { s with framesRejected := s.framesRejected + 1, state := .idle }
    exec (.rxb b) s = .next t ∧ exec (.tReject b) s = .next t

/-- 10_state.md R34 (wrap-around is decision D8, log entry 3): at `2^CNT_W - 1` the received-frame counter
wraps to 0, and nothing else tells. -/
def Obligations.ReceivedCounterWraps : Prop :=
  ∀ s : State, s.ready = true → s.state = .gotPayload → s.msgLen.toNat ≤ 250 →
    s.framesRx.toNat = 2 ^ Config.cntW - 1 →
    ∃ t, exec (.rxb s.crc) s = .next t ∧ t.framesRx = 0 ∧ t.state = .idle ∧
      t.framesRejected = s.framesRejected ∧ t.framesTx = s.framesTx

/-- 20_memory.md R72: what the parser does with a byte does not depend on the contents of `rx_buf`; only the
payload of an event does. -/
def Obligations.ParserNeverReadsItsBuffer : Prop :=
  ∀ (s t : State) (b : Byte) (buf : RxBuf), exec (.rxb b) s = .next t →
    ∃ u, exec (.rxb b) { s with rxBuf := buf } = .next u ∧
      { u with rxBuf := t.rxBuf, events := t.events } = t ∧
      u.events.length = t.events.length

/-! ### Sequences of bytes -/

/-- 41_frame_parser.md R153, 30_encoding.md R102 (the empty sequence by the spec's derivation, decision D24): RXS
is RXB byte by byte, so a sequence may be cut anywhere. What FRAME does is the model's choice (log entry 7):
whatever its checksum byte, however many payload bytes it has and whatever the parser's state, it is RXS of its
bytes, the length byte being the length's low byte. -/
def Obligations.SequencesRunByteByByte : Prop :=
  ∀ s : State,
    (s.ready = true →
      exec (.rxs []) s = .next s ∧
      (∀ b, exec (.rxs [b]) s = exec (.rxb b) s) ∧
      (∀ x y, exec (.rxs (x ++ y)) s = andThen (exec (.rxs x) s) (exec (.rxs y)))) ∧
    (∀ (id check : Byte) (p : List Byte),
      exec (.frame id p check) s = exec (.rxs ([0xA5#8, id, BitVec.ofNat 8 p.length] ++ p ++ [check])) s)

/-- R155, with 30_encoding.md R97: from `Idle` the bytes of a valid frame emit exactly one event, count one
received frame and no rejected one, and end in `Idle`. That the row FRAME does the same is the model's choice (log
entry 7; R102 calls FRAME a notation). The frame: nothing but the parser's registers and the payload's bytes of
`rx_buf` changes. -/
def Obligations.ValidFrameIsDelivered : Prop :=
  ∀ (s : State) (m : Byte) (p : List Byte), s.ready = true → s.state = .idle → p.length ≤ 250 →
    let len : Byte := BitVec.ofNat 8 p.length
    let check := crc8 ([m, len] ++ p)
    ∃ t : State,
      exec (.rxs ([0xA5#8, m, len] ++ p ++ [check])) s = .next t ∧
      exec (.frame m p check) s = .next t ∧
      t.events = s.events ++ [.msg m len p] ∧ t.framesRx = s.framesRx + 1 ∧
      t.framesRejected = s.framesRejected ∧ t.state = .idle ∧
      t.framesTx = s.framesTx ∧ t.ready = s.ready ∧ t.hasMsg = s.hasMsg ∧ t.hasSink = s.hasSink ∧
      t.results = s.results ∧ t.input = s.input ∧
      (∀ a, p.length ≤ a → t.rxByte a = s.rxByte a) ∧ ∀ a (h : a < p.length), t.rxByte a = p[a]

/-- R156: from `Idle` bytes without a sync marker change nothing, and what follows them is parsed as if they
had not been there. -/
def Obligations.NoiseWithoutSyncIsInvisible : Prop :=
  ∀ (s : State) (x y : List Byte), s.ready = true → s.state = .idle → (∀ b ∈ x, b ≠ 0xA5#8) →
    exec (.rxs x) s = .next s ∧ exec (.rxs (x ++ y)) s = exec (.rxs y) s

/-- R157, for any change of one byte and so for every single-bit flip: a valid frame changed in its id, in a
payload byte or in its checksum is rejected, once, with no event; changed in its sync byte, with no sync marker
among the rest, it is noise. The length byte is not covered (90_conflicts.md C3). -/
def Obligations.OneCorruptedByteIsRejected : Prop :=
  ∀ (s : State) (m y : Byte) (p : List Byte), s.ready = true → s.state = .idle → p.length ≤ 250 →
    let len : Byte := BitVec.ofNat 8 p.length
    let check := crc8 ([m, len] ++ p)
    let rejected (bytes : List Byte) : Prop := ∃ t : State, exec (.rxs bytes) s = .next t ∧
      t.events = s.events ∧ t.framesRejected = s.framesRejected + 1 ∧ t.framesRx = s.framesRx ∧ t.state = .idle
    (y ≠ m → rejected ([0xA5#8, y, len] ++ p ++ [check])) ∧
    (∀ (u v : List Byte) (x : Byte), p = u ++ [x] ++ v → y ≠ x →
      rejected ([0xA5#8, m, len] ++ (u ++ [y] ++ v) ++ [check])) ∧
    (y ≠ check → rejected ([0xA5#8, m, len] ++ p ++ [y])) ∧
    (y ≠ 0xA5#8 → (∀ b ∈ [m, len] ++ p ++ [check], b ≠ 0xA5#8) →
      exec (.rxs ([y, m, len] ++ p ++ [check])) s = .next s)

/-- R158: an oversized header ends in `Idle` with one rejection after its three bytes, and the next sync
marker, wherever it appears afterwards, starts a fresh parse; that `cursor` is then 0 is the spec's decision D9
(90_conflicts.md C4, log entry 15, DESIGN CHOICE). -/
def Obligations.OversizedHeaderResynchronises : Prop :=
  ∀ (s : State) (m len : Byte), s.ready = true → s.state = .idle → 251 ≤ len.toNat →
    ∃ t : State, exec (.rxs [0xA5#8, m, len]) s = .next t ∧ t.state = .idle ∧ t.events = s.events ∧
      t.framesRejected = s.framesRejected + 1 ∧ t.framesRx = s.framesRx ∧
      ∀ x : List Byte, (∀ b ∈ x, b ≠ 0xA5#8) →
        exec (.rxs ([0xA5#8, m, len] ++ x ++ [0xA5#8])) s =
          .next { t with crc := 0#8, cursor := 0#8, state := .gotSync }

/-- R159 (a), (b): within a frame the sync value is ordinary data: a second marker is the message-id, and from
no state but `Idle` does the sync value open a frame. -/
def Obligations.SyncValueInsideAFrameIsData : Prop :=
  (∀ s : State, s.ready = true → s.state = .idle →
    ∃ t : State, exec (.rxs [0xA5#8, 0xA5#8]) s = .next t ∧ t.state = .gotId ∧ t.msgId = 0xA5#8 ∧
      t.events = s.events ∧ t.framesRejected = s.framesRejected) ∧
  (∀ s t : State, s.state ≠ .idle → exec (.rxb 0xA5#8) s = .next t → t.state ≠ .gotSync)

/-- 41_frame_parser.md R162 and 90_conflicts.md C8: under the invariant a received byte emits at most one
message event, of a frame whose checksum it matches, with the length the event says. -/
def Obligations.DeliveredMessagesWereChecked : Prop :=
  ∀ (s t : State) (b : Byte), s.Inv → exec (.rxb b) s = .next t → t.events ≠ s.events →
    ∃ (m : Byte) (p : List Byte), t.events = s.events ++ [.msg m (BitVec.ofNat 8 p.length) p] ∧
      p.length ≤ 250 ∧ b = crc8 ([m, BitVec.ofNat 8 p.length] ++ p)

/-- The parser's soundness (R149, R154, R162): started in `Idle`, whatever bytes arrive, every message it
delivers stands in the stream as one valid frame, byte for byte, with nothing between its fields. -/
def Obligations.DeliveredMessagesAreFramesOfTheStream : Prop :=
  ∀ (s t : State) (bytes : List Byte), s.ready = true → s.state = .idle → exec (.rxs bytes) s = .next t →
    ∃ new : List Event, t.events = s.events ++ new ∧
      ∀ e ∈ new, ∃ (before after : List Byte) (m : Byte) (p : List Byte), p.length ≤ 250 ∧
        e = .msg m (BitVec.ofNat 8 p.length) p ∧
        bytes = before ++ ([0xA5#8, m, BitVec.ofNat 8 p.length] ++ p ++
          [crc8 ([m, BitVec.ofNat 8 p.length] ++ p)]) ++ after

/-! ### The frame encoder -/

/-- 42_frame_encoder.md R180, with 30_encoding.md R97: a SEND whose arguments pass emits the frame as one
burst, counts it and returns `ok = 1`; one whose arguments fail returns `ok = 0`; no other field changes
(R184). On a context that is not ready it is refused. The payload has its `n` bytes (R271). -/
def Obligations.SendEmitsTheFrame : Prop :=
  ∀ (id : Byte) (n : TxLen) (present : Bool) (pay : List Byte) (s : State),
    (present = true → n.toNat ≤ 250 → n.toNat ≤ pay.length) →
    let p := pay.take n.toNat
    let len : Byte := BitVec.ofNat 8 n.toNat
    exec (.send id n present pay) s =
      if s.ready = false then .refused .notReady
      else if 250 < n.toNat ∨ (present = false ∧ n ≠ 0) then .next { s with results := s.results ++ [.ok false] }
      else .next { s with
        events := s.events ++ [.sink ([0xA5#8, id, len] ++ p ++ [crc8 ([id, len] ++ p)])]
        framesTx := s.framesTx + 1
        results := s.results ++ [.ok true] }

/-- R181: SEND fails exactly when the length exceeds 250 or the payload is null while the length is not 0; it
then returns `ok = 0`, sends nothing and counts nothing. -/
def Obligations.SendFailsOnItsTwoConditionsOnly : Prop :=
  ∀ (id : Byte) (n : TxLen) (present : Bool) (pay : List Byte) (s : State), s.ready = true →
    ((n.toNat > 250 ∨ (present = false ∧ n ≠ 0)) →
      exec (.send id n present pay) s = .next { s with results := s.results ++ [.ok false] }) ∧
    (¬(n.toNat > 250 ∨ (present = false ∧ n ≠ 0)) → n.toNat ≤ pay.length →
      ∃ t, exec (.send id n present pay) s = .next t ∧ t.results = s.results ++ [.ok true] ∧
        t.framesTx = s.framesTx + 1)

/-- 70_reset_and_hazards.md R271, 93_implementation_defined.md U15: a payload with fewer than `n` readable
bytes is outside the contract, and the model refuses it (log entry 18). -/
def Obligations.ShortPayloadIsRefused : Prop :=
  ∀ (id : Byte) (n : TxLen) (pay : List Byte) (s : State), s.ready = true → n.toNat ≤ 250 →
    pay.length < n.toNat → exec (.send id n true pay) s = .refused .payloadTooShort

/-- R187: for every id and payload a SEND emits the payload's frame as its sink event, and any ready context in
`Idle`, the sender or another, that is fed those bytes emits that message. -/
def Obligations.SentFramesAreReceived : Prop :=
  ∀ (id : Byte) (p : List Byte) (s r : State), s.ready = true → p.length ≤ 250 →
    r.ready = true → r.state = .idle →
    let len : Byte := BitVec.ofNat 8 p.length
    let frame := [0xA5#8, id, len] ++ p ++ [crc8 ([id, len] ++ p)]
    ∃ t u : State,
      exec (.send id (BitVec.ofNat 16 p.length) true p) s = .next t ∧ t.events = s.events ++ [.sink frame] ∧
      exec (.rxs frame) r = .next u ∧ u.events = r.events ++ [.msg id len p] ∧ u.framesRx = r.framesRx + 1

/-- 10_state.md R29, 90_conflicts.md C9: SEND and RXB commute: in either order they reach the same context and
emit the same events, apart from the events' relative order. -/
def Obligations.SendAndReceiveCommute : Prop :=
  ∀ (s a b : State) (byte id : Byte) (n : TxLen) (present : Bool) (pay : List Byte),
    exec (.send id n present pay) s = .next a → exec (.rxb byte) s = .next b →
    ∃ (sent received : List Event) (c : State),
      a.events = s.events ++ sent ∧ b.events = s.events ++ received ∧
      exec (.rxb byte) a = .next { c with events := s.events ++ sent ++ received } ∧
      exec (.send id n present pay) b = .next { c with events := s.events ++ received ++ sent }

/-! ### The context operations -/

/-- 43_context_ops.md R200, R202, 10_state.md R38 (decisions D4, D5, D19; log entries 1 and 12): INIT with both
collaborators, on any context, ready or not, gives every field its value after INIT, and leaves `rx_buf`
alone. -/
def Obligations.InitBringsTheContextUp : Prop :=
  ∀ s : State, exec (.init true true) s = .next { s with
    ready := true, state := .idle, msgId := 0x00#8, msgLen := 0x00#8, cursor := 0#8, crc := 0x00#8
    framesRx := 0, framesRejected := 0, framesTx := 0, hasMsg := true, hasSink := true
    results := s.results ++ [.ok true] }

/-- R201 (decision D26, log entry 13): INIT with a collaborator absent returns `ok = 0` and leaves every field
of the context as it was. -/
def Obligations.InitWithoutACollaboratorFails : Prop :=
  ∀ (hasMsg hasSink : Bool) (s : State), (hasMsg = false ∨ hasSink = false) →
    exec (.init hasMsg hasSink) s = .next { s with results := s.results ++ [.ok false] }

/-- R203 (`msg_id` and `msg_len` by 90_conflicts.md C1, decision D10, log entry 14): RESET returns the five
parser registers to their zeros and touches nothing else. -/
def Obligations.ResetClearsTheParserOnly : Prop :=
  ∀ s : State, s.ready = true → exec .reset s = .next { s with
    state := .idle, cursor := 0#8, crc := 0x00#8, msgId := 0x00#8, msgLen := 0x00#8 }

/-- R204: no run of operations can tell that RESET was issued on an idle context: whatever is presented
afterwards, events, results and counters come out the same as without it. -/
def Obligations.ResetOnAnIdleContextCannotBeNoticed : Prop :=
  ∀ (s t : State) (k : Nat), s.ready = true → s.state = .idle → exec .reset s = .next t →
    Indistinguishable (Host.Core.run Sys2Proof.core k s) (Host.Core.run Sys2Proof.core k t)

/-- R206, R207, R208 (decision D20): a counter read returns the counter and changes nothing else. -/
def Obligations.CounterReadsReturnTheCounters : Prop :=
  ∀ s : State, s.ready = true →
    exec .rdrx s = .next { s with results := s.results ++ [.count s.framesRx] } ∧
    exec .rdrej s = .next { s with results := s.results ++ [.count s.framesRejected] } ∧
    exec .rdtx s = .next { s with results := s.results ++ [.count s.framesTx] }

/-- R210 (decisions D5, D18; log entry 16): on a context that is not ready every operation but INIT, CRCU and
CRC8 is refused, and those three run. -/
def Obligations.UnreadyContextRunsInitAndCrcOnly : Prop :=
  ∀ (s : State) (i : Instr), s.ready = false →
    match i with
    | .init _ _ => ∃ t, exec i s = .next t
    | .crc8 _ => ∃ t, exec i s = .next t
    | .crcu _ _ => ∃ t, exec i s = .next t
    | _ => exec i s = .refused .notReady

/-- The model's choice (log entry 8): a transition that `state`, the byte or the registers do not select
(30_encoding.md R98; in `GotLen` by R149's comparison, log entry 9) is refused by name. -/
def Obligations.UnselectedTransitionsAreRefused : Prop :=
  ∀ (s : State) (b : Byte), s.ready = true →
    (s.state ≠ .idle → exec .tSync s = .refused .transitionNotSelected) ∧
    (s.state ≠ .idle ∨ b = 0xA5#8 → exec (.tSkip b) s = .refused .transitionNotSelected) ∧
    (s.state ≠ .gotSync → exec (.tId b) s = .refused .transitionNotSelected) ∧
    (s.state ≠ .gotId → exec .tLen0 s = .refused .transitionNotSelected) ∧
    (s.state ≠ .gotId ∨ b.toNat = 0 ∨ 250 < b.toNat → exec (.tLen b) s = .refused .transitionNotSelected) ∧
    (s.state ≠ .gotId ∨ b.toNat ≤ 250 → exec (.tLenOvf b) s = .refused .transitionNotSelected) ∧
    (s.state ≠ .gotLen ∨ s.cursor + 1 = s.msgLen → exec (.tData b) s = .refused .transitionNotSelected) ∧
    (s.state ≠ .gotLen ∨ s.cursor + 1 ≠ s.msgLen → exec (.tDataEnd b) s = .refused .transitionNotSelected) ∧
    (s.state ≠ .gotPayload ∨ b ≠ s.crc → exec (.tAccept b) s = .refused .transitionNotSelected) ∧
    (s.state ≠ .gotPayload ∨ b = s.crc → exec (.tReject b) s = .refused .transitionNotSelected)

/-- 10_state.md R38, R39: the values the spec gives after the hardware reset, and the first byte after it is
decoded in `Idle`. -/
def Obligations.ResetLeavesTheStatedValues : Prop :=
  State.reset.ready = true ∧ State.reset.state = .idle ∧ State.reset.msgId = 0x00#8 ∧
  State.reset.msgLen = 0x00#8 ∧ State.reset.cursor = 0#8 ∧ State.reset.crc = 0x00#8 ∧
  State.reset.framesRx = 0 ∧ State.reset.framesRejected = 0 ∧ State.reset.framesTx = 0 ∧
  State.reset.hasMsg = true ∧ State.reset.hasSink = true ∧
  ∀ b : Byte, exec (.rxb b) State.reset =
    if b = 0xA5#8 then exec .tSync State.reset else exec (.tSkip b) State.reset

/-! ### The whole machine -/

/-- The invariant holds after reset, and on any context at power-on whose buffer list is canonical. -/
def Obligations.InvariantHoldsAtReset : Prop :=
  State.reset.Inv ∧ ∀ s : State, s.ready = false → s.rxBuf.wf = true → s.Inv

/-- 10_state.md R28, and the canonical form of the buffer: every step keeps the invariant. -/
def Obligations.EveryStepKeepsTheInvariant : Prop :=
  ∀ s t : State, s.Inv → step s = .next t → t.Inv

/-- 20_memory.md R68, 10_state.md R28 (consequences): from a state that meets the invariant no step reaches
outside `rx_buf`. -/
def Obligations.NoStepLeavesTheBuffer : Prop :=
  ∀ (s : State) (r : Fault), s.Inv → step s ≠ .fault r

/-- 00_scope.md R10, 60_exceptions.md R227, 70_reset_and_hazards.md R280, with three choices those rules do not
make: that a frame runs as an instruction (FRAME, log entry 7), that INIT is allowed on a ready context (decision
D4, log entry 12; R202 lets a model refuse it) and that a failed INIT leaves it ready (decision D26, log entry 13).
On a ready context that meets the invariant every operation of the owner, and every frame that arrives, completes;
SEND with the `n` bytes it claims (R271). -/
def Obligations.EveryOperationCompletes : Prop :=
  ∀ (s : State) (i : Instr), s.Inv → s.ready = true → i.format ≠ .rxdec →
    (match i with
      | .send _ n present pay => present = true → n.toNat ≤ pay.length
      | _ => True) →
    ∃ t, exec i s = .next t ∧ t.Inv ∧ t.ready = true

/-- 10_state.md R31, R33, 42_frame_encoder.md R183: no instruction takes an event back, and but for a
successful INIT `frames_rx` goes up by the message events emitted and `frames_tx` by the sink events. -/
def Obligations.CountersCountTheEvents : Prop :=
  ∀ (i : Instr) (s t : State), exec i s = .next t → i ≠ .init true true →
    ∃ new : List Event, t.events = s.events ++ new ∧
      t.framesRx = s.framesRx + BitVec.ofNat 32 (messagesIn new) ∧
      t.framesTx = s.framesTx + BitVec.ofNat 32 (sinksIn new)

/-- 10_state.md R32: `frames_rejected` is counted by the LengthOverflow and ChecksumMismatch transitions and
by nothing else but the byte operations they are part of; INIT clears it. -/
def Obligations.OnlyRejectionsCountAsRejected : Prop :=
  ∀ (i : Instr) (s t : State), exec i s = .next t →
    match i with
    | .tLenOvf _ => t.framesRejected = s.framesRejected + 1
    | .tReject _ => t.framesRejected = s.framesRejected + 1
    | .rxb b => t.framesRejected = s.framesRejected +
        (if (s.state = .gotId ∧ 250 < b.toNat) ∨ (s.state = .gotPayload ∧ b ≠ s.crc) then 1 else 0)
    | .rxs _ => True
    | .frame _ _ _ => True
    | .init hasMsg hasSink => t.framesRejected = if hasMsg && hasSink then 0 else s.framesRejected
    | _ => t.framesRejected = s.framesRejected

/-- The frame of everything that stores nothing (10_state.md R26, R29 row `rx_buf`, 20_memory.md R61): every
byte of `rx_buf` reads as before, and what is presented stays presented. FRAME stores as log entry 7 reads it. -/
def Obligations.OnlyTheParserStores : Prop :=
  ∀ (i : Instr) (s t : State), exec i s = .next t →
    t.input = s.input ∧
    match i with
    | .rxb _ => True
    | .rxs _ => True
    | .frame _ _ _ => True
    | .tData _ => True
    | .tDataEnd _ => True
    | _ => t.rxBuf = s.rxBuf ∧ ∀ a, t.rxByte a = s.rxByte a

/-- The frame of the storing forms of one byte (41_frame_parser.md R147, R148; 20_memory.md R61): RXB, T_DATA
and T_DATAEND store their byte at `cursor`, in `GotLen` only, and every other byte reads as before. -/
def Obligations.OneByteIsStoredAtTheCursor : Prop :=
  ∀ (s t : State) (b : Byte) (i : Instr), (i = .rxb b ∨ i = .tData b ∨ i = .tDataEnd b) →
    exec i s = .next t →
    (s.state = .gotLen → t.rxByte s.cursor.toNat = b ∧ s.cursor.toNat < 250) ∧
    ∀ a, (s.state = .gotLen → a ≠ s.cursor.toNat) → t.rxByte a = s.rxByte a

/-- The frame of the byte sequences (41_frame_parser.md R153; FRAME as the model's choice, log entry 7): a byte
that arrives in `GotLen` is stored at the cursor it finds there, where it stays unless a later byte of the sequence
is stored at that index; no other index changes. -/
def Obligations.SequencesStoreAtTheirCursorsOnly : Prop :=
  ∀ (s t : State) (bytes : List Byte) (i : Instr),
    (i = .rxs bytes ∨ ∃ id p check, i = .frame id p check ∧
      bytes = [0xA5#8, id, BitVec.ofNat 8 p.length] ++ p ++ [check]) →
    exec i s = .next t →
    (∀ (before after : List Byte) (b : Byte) (u : State), bytes = before ++ [b] ++ after →
      exec (.rxs before) s = .next u → u.state = .gotLen →
      (∀ (mid rest : List Byte) (c : Byte) (v : State), after = mid ++ [c] ++ rest →
        exec (.rxs (before ++ [b] ++ mid)) s = .next v → v.state = .gotLen → v.cursor ≠ u.cursor) →
      t.rxByte u.cursor.toNat = b ∧ u.cursor.toNat < 250) ∧
    ∀ a, (∀ (before after : List Byte) (b : Byte) (u : State), bytes = before ++ [b] ++ after →
        exec (.rxs before) s = .next u → u.state = .gotLen → a ≠ u.cursor.toNat) →
      t.rxByte a = s.rxByte a

/-- 10_state.md R29: each group of operations leaves the fields outside its column alone: SEND the parser's
side, the parser (FRAME with it, log entry 7) the encoder's side and the configuration, the counter reads and the CRC
primitives the whole context. -/
def Obligations.OperationsTouchTheirOwnFieldsOnly : Prop :=
  ∀ (i : Instr) (s t : State), exec i s = .next t →
    let parser := t.state = s.state ∧ t.msgId = s.msgId ∧ t.msgLen = s.msgLen ∧ t.cursor = s.cursor ∧
      t.crc = s.crc ∧ t.rxBuf = s.rxBuf
    let receive := t.framesRx = s.framesRx ∧ t.framesRejected = s.framesRejected
    let config := t.ready = s.ready ∧ t.hasMsg = s.hasMsg ∧ t.hasSink = s.hasSink
    match i with
    | .init _ _ => t.rxBuf = s.rxBuf ∧ t.events = s.events
    | .send _ _ _ _ => parser ∧ receive ∧ config
    | .reset => t.rxBuf = s.rxBuf ∧ receive ∧ config ∧ t.framesTx = s.framesTx ∧ t.events = s.events ∧
        t.results = s.results
    | .rdrx => parser ∧ receive ∧ config ∧ t.framesTx = s.framesTx ∧ t.events = s.events
    | .rdrej => parser ∧ receive ∧ config ∧ t.framesTx = s.framesTx ∧ t.events = s.events
    | .rdtx => parser ∧ receive ∧ config ∧ t.framesTx = s.framesTx ∧ t.events = s.events
    | .crc8 _ => parser ∧ receive ∧ config ∧ t.framesTx = s.framesTx ∧ t.events = s.events
    | .crcu _ _ => parser ∧ receive ∧ config ∧ t.framesTx = s.framesTx ∧ t.events = s.events
    | _ => config ∧ t.framesTx = s.framesTx ∧ t.results = s.results

/-- 10_state.md R28 (consequences), R26, U12: bytes of `rx_buf` outside the frame in progress never reach an
event: two machines that meet the invariant and differ in such bytes only cannot be told apart by any run. -/
def Obligations.StaleBufferBytesNeverLeave : Prop :=
  ∀ (s : State) (buf : RxBuf) (k : Nat), s.Inv → (∀ a < s.held, buf.read a = s.rxByte a) →
    Indistinguishable (Host.Core.run Sys2Proof.core k s)
      (Host.Core.run Sys2Proof.core k { s with rxBuf := buf })

/-- 60_exceptions.md R240 ("every byte sequence is handled"), 30_encoding.md R99: bytes presented on the wire, a
whole frame or not, do what RXS of them does, and on a ready context that meets the invariant they are all taken.
That the wire is presented as one transfer is the model's choice (log entries 5 and 7). -/
def Obligations.EveryByteSequenceOnTheWireIsTaken : Prop :=
  ∀ (s : State) (bytes : List Byte),
    step (s.present (.wire bytes)) = exec (.rxs bytes) s ∧
    (s.Inv → s.ready = true → ∃ t, step (s.present (.wire bytes)) = .next t ∧ t.Inv ∧ t.ready = true)
end

