-- ==== Sys2Proof/Laws/State.lean ====
section
/-! SUPPORT. What each update of the state does to each field: one lemma a field and update, true by rfl. -/

namespace Sys2Proof.Machine.State

variable (s : State)

/-! ### `foldCrc` -/

@[simp] theorem foldCrc_ready (b : Byte) : (s.foldCrc b).ready = s.ready := rfl
@[simp] theorem foldCrc_state (b : Byte) : (s.foldCrc b).state = s.state := rfl
@[simp] theorem foldCrc_msgId (b : Byte) : (s.foldCrc b).msgId = s.msgId := rfl
@[simp] theorem foldCrc_msgLen (b : Byte) : (s.foldCrc b).msgLen = s.msgLen := rfl
@[simp] theorem foldCrc_cursor (b : Byte) : (s.foldCrc b).cursor = s.cursor := rfl
@[simp] theorem foldCrc_crc (b : Byte) : (s.foldCrc b).crc = crc8Update s.crc b := rfl
@[simp] theorem foldCrc_rxBuf (b : Byte) : (s.foldCrc b).rxBuf = s.rxBuf := rfl
@[simp] theorem foldCrc_framesRx (b : Byte) : (s.foldCrc b).framesRx = s.framesRx := rfl
@[simp] theorem foldCrc_framesRejected (b : Byte) : (s.foldCrc b).framesRejected = s.framesRejected := rfl
@[simp] theorem foldCrc_framesTx (b : Byte) : (s.foldCrc b).framesTx = s.framesTx := rfl
@[simp] theorem foldCrc_hasMsg (b : Byte) : (s.foldCrc b).hasMsg = s.hasMsg := rfl
@[simp] theorem foldCrc_hasSink (b : Byte) : (s.foldCrc b).hasSink = s.hasSink := rfl
@[simp] theorem foldCrc_input (b : Byte) : (s.foldCrc b).input = s.input := rfl
@[simp] theorem foldCrc_events (b : Byte) : (s.foldCrc b).events = s.events := rfl
@[simp] theorem foldCrc_results (b : Byte) : (s.foldCrc b).results = s.results := rfl

/-! ### `goto` -/

@[simp] theorem goto_ready (st : ParserState) : (s.goto st).ready = s.ready := rfl
@[simp] theorem goto_state (st : ParserState) : (s.goto st).state = st := rfl
@[simp] theorem goto_msgId (st : ParserState) : (s.goto st).msgId = s.msgId := rfl
@[simp] theorem goto_msgLen (st : ParserState) : (s.goto st).msgLen = s.msgLen := rfl
@[simp] theorem goto_cursor (st : ParserState) : (s.goto st).cursor = s.cursor := rfl
@[simp] theorem goto_crc (st : ParserState) : (s.goto st).crc = s.crc := rfl
@[simp] theorem goto_rxBuf (st : ParserState) : (s.goto st).rxBuf = s.rxBuf := rfl
@[simp] theorem goto_framesRx (st : ParserState) : (s.goto st).framesRx = s.framesRx := rfl
@[simp] theorem goto_framesRejected (st : ParserState) : (s.goto st).framesRejected = s.framesRejected := rfl
@[simp] theorem goto_framesTx (st : ParserState) : (s.goto st).framesTx = s.framesTx := rfl
@[simp] theorem goto_hasMsg (st : ParserState) : (s.goto st).hasMsg = s.hasMsg := rfl
@[simp] theorem goto_hasSink (st : ParserState) : (s.goto st).hasSink = s.hasSink := rfl
@[simp] theorem goto_input (st : ParserState) : (s.goto st).input = s.input := rfl
@[simp] theorem goto_events (st : ParserState) : (s.goto st).events = s.events := rfl
@[simp] theorem goto_results (st : ParserState) : (s.goto st).results = s.results := rfl

/-! ### `countReceived` -/

@[simp] theorem countReceived_ready : (s.countReceived).ready = s.ready := rfl
@[simp] theorem countReceived_state : (s.countReceived).state = s.state := rfl
@[simp] theorem countReceived_msgId : (s.countReceived).msgId = s.msgId := rfl
@[simp] theorem countReceived_msgLen : (s.countReceived).msgLen = s.msgLen := rfl
@[simp] theorem countReceived_cursor : (s.countReceived).cursor = s.cursor := rfl
@[simp] theorem countReceived_crc : (s.countReceived).crc = s.crc := rfl
@[simp] theorem countReceived_rxBuf : (s.countReceived).rxBuf = s.rxBuf := rfl
@[simp] theorem countReceived_framesRx : (s.countReceived).framesRx = inc s.framesRx := rfl
@[simp] theorem countReceived_framesRejected : (s.countReceived).framesRejected = s.framesRejected := rfl
@[simp] theorem countReceived_framesTx : (s.countReceived).framesTx = s.framesTx := rfl
@[simp] theorem countReceived_hasMsg : (s.countReceived).hasMsg = s.hasMsg := rfl
@[simp] theorem countReceived_hasSink : (s.countReceived).hasSink = s.hasSink := rfl
@[simp] theorem countReceived_input : (s.countReceived).input = s.input := rfl
@[simp] theorem countReceived_events : (s.countReceived).events = s.events := rfl
@[simp] theorem countReceived_results : (s.countReceived).results = s.results := rfl

/-! ### `countRejected` -/

@[simp] theorem countRejected_ready : (s.countRejected).ready = s.ready := rfl
@[simp] theorem countRejected_state : (s.countRejected).state = s.state := rfl
@[simp] theorem countRejected_msgId : (s.countRejected).msgId = s.msgId := rfl
@[simp] theorem countRejected_msgLen : (s.countRejected).msgLen = s.msgLen := rfl
@[simp] theorem countRejected_cursor : (s.countRejected).cursor = s.cursor := rfl
@[simp] theorem countRejected_crc : (s.countRejected).crc = s.crc := rfl
@[simp] theorem countRejected_rxBuf : (s.countRejected).rxBuf = s.rxBuf := rfl
@[simp] theorem countRejected_framesRx : (s.countRejected).framesRx = s.framesRx := rfl
@[simp] theorem countRejected_framesRejected : (s.countRejected).framesRejected = inc s.framesRejected := rfl
@[simp] theorem countRejected_framesTx : (s.countRejected).framesTx = s.framesTx := rfl
@[simp] theorem countRejected_hasMsg : (s.countRejected).hasMsg = s.hasMsg := rfl
@[simp] theorem countRejected_hasSink : (s.countRejected).hasSink = s.hasSink := rfl
@[simp] theorem countRejected_input : (s.countRejected).input = s.input := rfl
@[simp] theorem countRejected_events : (s.countRejected).events = s.events := rfl
@[simp] theorem countRejected_results : (s.countRejected).results = s.results := rfl

/-! ### `countSent` -/

@[simp] theorem countSent_ready : (s.countSent).ready = s.ready := rfl
@[simp] theorem countSent_state : (s.countSent).state = s.state := rfl
@[simp] theorem countSent_msgId : (s.countSent).msgId = s.msgId := rfl
@[simp] theorem countSent_msgLen : (s.countSent).msgLen = s.msgLen := rfl
@[simp] theorem countSent_cursor : (s.countSent).cursor = s.cursor := rfl
@[simp] theorem countSent_crc : (s.countSent).crc = s.crc := rfl
@[simp] theorem countSent_rxBuf : (s.countSent).rxBuf = s.rxBuf := rfl
@[simp] theorem countSent_framesRx : (s.countSent).framesRx = s.framesRx := rfl
@[simp] theorem countSent_framesRejected : (s.countSent).framesRejected = s.framesRejected := rfl
@[simp] theorem countSent_framesTx : (s.countSent).framesTx = inc s.framesTx := rfl
@[simp] theorem countSent_hasMsg : (s.countSent).hasMsg = s.hasMsg := rfl
@[simp] theorem countSent_hasSink : (s.countSent).hasSink = s.hasSink := rfl
@[simp] theorem countSent_input : (s.countSent).input = s.input := rfl
@[simp] theorem countSent_events : (s.countSent).events = s.events := rfl
@[simp] theorem countSent_results : (s.countSent).results = s.results := rfl

/-! ### `clearParser` -/

@[simp] theorem clearParser_ready : (s.clearParser).ready = s.ready := rfl
@[simp] theorem clearParser_state : (s.clearParser).state = .idle := rfl
@[simp] theorem clearParser_msgId : (s.clearParser).msgId = 0#8 := rfl
@[simp] theorem clearParser_msgLen : (s.clearParser).msgLen = 0#8 := rfl
@[simp] theorem clearParser_cursor : (s.clearParser).cursor = 0#8 := rfl
@[simp] theorem clearParser_crc : (s.clearParser).crc = 0#8 := rfl
@[simp] theorem clearParser_rxBuf : (s.clearParser).rxBuf = s.rxBuf := rfl
@[simp] theorem clearParser_framesRx : (s.clearParser).framesRx = s.framesRx := rfl
@[simp] theorem clearParser_framesRejected : (s.clearParser).framesRejected = s.framesRejected := rfl
@[simp] theorem clearParser_framesTx : (s.clearParser).framesTx = s.framesTx := rfl
@[simp] theorem clearParser_hasMsg : (s.clearParser).hasMsg = s.hasMsg := rfl
@[simp] theorem clearParser_hasSink : (s.clearParser).hasSink = s.hasSink := rfl
@[simp] theorem clearParser_input : (s.clearParser).input = s.input := rfl
@[simp] theorem clearParser_events : (s.clearParser).events = s.events := rfl
@[simp] theorem clearParser_results : (s.clearParser).results = s.results := rfl

/-! ### `storeByte` -/

@[simp] theorem storeByte_ready (b : Byte) : (s.storeByte b).ready = s.ready := rfl
@[simp] theorem storeByte_state (b : Byte) : (s.storeByte b).state = s.state := rfl
@[simp] theorem storeByte_msgId (b : Byte) : (s.storeByte b).msgId = s.msgId := rfl
@[simp] theorem storeByte_msgLen (b : Byte) : (s.storeByte b).msgLen = s.msgLen := rfl
@[simp] theorem storeByte_cursor (b : Byte) : (s.storeByte b).cursor = s.cursor + 1#8 := rfl
@[simp] theorem storeByte_crc (b : Byte) : (s.storeByte b).crc = crc8Update s.crc b := rfl
@[simp] theorem storeByte_rxBuf (b : Byte) : (s.storeByte b).rxBuf = s.rxBuf.write s.cursor.toNat b := rfl
@[simp] theorem storeByte_framesRx (b : Byte) : (s.storeByte b).framesRx = s.framesRx := rfl
@[simp] theorem storeByte_framesRejected (b : Byte) : (s.storeByte b).framesRejected = s.framesRejected := rfl
@[simp] theorem storeByte_framesTx (b : Byte) : (s.storeByte b).framesTx = s.framesTx := rfl
@[simp] theorem storeByte_hasMsg (b : Byte) : (s.storeByte b).hasMsg = s.hasMsg := rfl
@[simp] theorem storeByte_hasSink (b : Byte) : (s.storeByte b).hasSink = s.hasSink := rfl
@[simp] theorem storeByte_input (b : Byte) : (s.storeByte b).input = s.input := rfl
@[simp] theorem storeByte_events (b : Byte) : (s.storeByte b).events = s.events := rfl
@[simp] theorem storeByte_results (b : Byte) : (s.storeByte b).results = s.results := rfl

/-! ### `emit` -/

@[simp] theorem emit_ready (e : Event) : (s.emit e).ready = s.ready := rfl
@[simp] theorem emit_state (e : Event) : (s.emit e).state = s.state := rfl
@[simp] theorem emit_msgId (e : Event) : (s.emit e).msgId = s.msgId := rfl
@[simp] theorem emit_msgLen (e : Event) : (s.emit e).msgLen = s.msgLen := rfl
@[simp] theorem emit_cursor (e : Event) : (s.emit e).cursor = s.cursor := rfl
@[simp] theorem emit_crc (e : Event) : (s.emit e).crc = s.crc := rfl
@[simp] theorem emit_rxBuf (e : Event) : (s.emit e).rxBuf = s.rxBuf := rfl
@[simp] theorem emit_framesRx (e : Event) : (s.emit e).framesRx = s.framesRx := rfl
@[simp] theorem emit_framesRejected (e : Event) : (s.emit e).framesRejected = s.framesRejected := rfl
@[simp] theorem emit_framesTx (e : Event) : (s.emit e).framesTx = s.framesTx := rfl
@[simp] theorem emit_hasMsg (e : Event) : (s.emit e).hasMsg = s.hasMsg := rfl
@[simp] theorem emit_hasSink (e : Event) : (s.emit e).hasSink = s.hasSink := rfl
@[simp] theorem emit_input (e : Event) : (s.emit e).input = s.input := rfl
@[simp] theorem emit_events (e : Event) : (s.emit e).events = s.events ++ [e] := rfl
@[simp] theorem emit_results (e : Event) : (s.emit e).results = s.results := rfl

/-! ### `answer` -/

@[simp] theorem answer_ready (r : Result) : (s.answer r).ready = s.ready := rfl
@[simp] theorem answer_state (r : Result) : (s.answer r).state = s.state := rfl
@[simp] theorem answer_msgId (r : Result) : (s.answer r).msgId = s.msgId := rfl
@[simp] theorem answer_msgLen (r : Result) : (s.answer r).msgLen = s.msgLen := rfl
@[simp] theorem answer_cursor (r : Result) : (s.answer r).cursor = s.cursor := rfl
@[simp] theorem answer_crc (r : Result) : (s.answer r).crc = s.crc := rfl
@[simp] theorem answer_rxBuf (r : Result) : (s.answer r).rxBuf = s.rxBuf := rfl
@[simp] theorem answer_framesRx (r : Result) : (s.answer r).framesRx = s.framesRx := rfl
@[simp] theorem answer_framesRejected (r : Result) : (s.answer r).framesRejected = s.framesRejected := rfl
@[simp] theorem answer_framesTx (r : Result) : (s.answer r).framesTx = s.framesTx := rfl
@[simp] theorem answer_hasMsg (r : Result) : (s.answer r).hasMsg = s.hasMsg := rfl
@[simp] theorem answer_hasSink (r : Result) : (s.answer r).hasSink = s.hasSink := rfl
@[simp] theorem answer_input (r : Result) : (s.answer r).input = s.input := rfl
@[simp] theorem answer_events (r : Result) : (s.answer r).events = s.events := rfl
@[simp] theorem answer_results (r : Result) : (s.answer r).results = s.results ++ [r] := rfl

/-! ### `popInput` -/

@[simp] theorem popInput_ready : (s.popInput).ready = s.ready := rfl
@[simp] theorem popInput_state : (s.popInput).state = s.state := rfl
@[simp] theorem popInput_msgId : (s.popInput).msgId = s.msgId := rfl
@[simp] theorem popInput_msgLen : (s.popInput).msgLen = s.msgLen := rfl
@[simp] theorem popInput_cursor : (s.popInput).cursor = s.cursor := rfl
@[simp] theorem popInput_crc : (s.popInput).crc = s.crc := rfl
@[simp] theorem popInput_rxBuf : (s.popInput).rxBuf = s.rxBuf := rfl
@[simp] theorem popInput_framesRx : (s.popInput).framesRx = s.framesRx := rfl
@[simp] theorem popInput_framesRejected : (s.popInput).framesRejected = s.framesRejected := rfl
@[simp] theorem popInput_framesTx : (s.popInput).framesTx = s.framesTx := rfl
@[simp] theorem popInput_hasMsg : (s.popInput).hasMsg = s.hasMsg := rfl
@[simp] theorem popInput_hasSink : (s.popInput).hasSink = s.hasSink := rfl
@[simp] theorem popInput_input : (s.popInput).input = s.input.tail := rfl
@[simp] theorem popInput_events : (s.popInput).events = s.events := rfl
@[simp] theorem popInput_results : (s.popInput).results = s.results := rfl

/-! ### Reads of the receive buffer -/

/-- A byte of `rx_buf` is a function of the buffer alone. -/
theorem rxByte_congr {s t : State} (h : t.rxBuf = s.rxBuf) (a : Nat) : t.rxByte a = s.rxByte a := by
  simp [State.rxByte, h]

/-- So is a view. -/
theorem rxView_congr {s t : State} (h : t.rxBuf = s.rxBuf) (k : Nat) : t.rxView k = s.rxView k := by
  simp [State.rxView, State.rxByte, h]

@[simp] theorem rxView_length (k : Nat) : (s.rxView k).length = k := by simp [State.rxView]

@[simp] theorem rxView_zero : s.rxView 0 = [] := rfl

theorem rxView_succ (k : Nat) : s.rxView (k + 1) = s.rxView k ++ [s.rxByte k] := by
  simp [State.rxView, List.range_succ]

end Sys2Proof.Machine.State
end

