-- ==== Sys2Proof/Laws/Crc.lean ====
section
/-! SUPPORT. The CRC as a fold, and its arithmetic one step at a time. -/

namespace Sys2Proof.Machine

/-- The update sees its two operands only through their exclusive-or. -/
theorem crc8Update_eq (running byte : Byte) : crc8Update running byte = crc8Update 0#8 (running ^^^ byte) := by
  simp [crc8Update]

@[simp] theorem crcFold_nil (r : Byte) : crcFold r [] = r := rfl

@[simp] theorem crcFold_cons (r d : Byte) (data : List Byte) :
    crcFold r (d :: data) = crcFold (crc8Update r d) data := rfl

theorem crcFold_append (r : Byte) (x y : List Byte) : crcFold r (x ++ y) = crcFold (crcFold r x) y :=
  List.foldl_append ..

theorem crc8_eq (data : List Byte) : crc8 data = crcFold 0#8 data := rfl

/-- The running value after one more byte: what the parser computes (40_crc_engine.md R127). -/
theorem crc8_snoc (data : List Byte) (b : Byte) : crc8 (data ++ [b]) = crc8Update (crc8 data) b := by
  simp [crc8_eq, crcFold_append]

/-- A division step distributes over exclusive-or. -/
theorem crcStep_xor (a b : Byte) : crcStep (a ^^^ b) = crcStep a ^^^ crcStep b := by
  simp only [crcStep, BitVec.getLsbD_xor]
  rw [BitVec.shiftLeft_xor_distrib]
  generalize a <<< 1 = x, b <<< 1 = y, Config.crcPoly = p
  cases a.getLsbD 7 <;> cases b.getLsbD 7 <;> simp <;> ext i hi <;> simp <;>
    cases x[i] <;> cases y[i] <;> cases p[i] <;> rfl

/-- A division step loses nothing: only 0 goes to 0. -/
theorem crcStep_eq_zero : ∀ c : Byte, crcStep c = 0#8 → c = 0#8 := by decide

end Sys2Proof.Machine
end

