-- ==== Sys2Proof/Laws/Decode.lean ====
section
/-! SUPPORT. The pieces of the encoding that the round trips rest on. -/

namespace Sys2Proof

/-- A state's number names it. -/
@[simp] theorem ParserState.ofCode_code (st : ParserState) : ParserState.ofCode st.code = some st := by
  cases st <;> rfl

/-- Only a state's own number names it. -/
theorem ParserState.code_of_ofCode {c : Byte} {st : ParserState} (h : ParserState.ofCode c = some st) :
    c = st.code := by
  have : ∀ c : Byte, ∀ st, ParserState.ofCode c = some st → c = st.code := by
    intro c st
    cases st <;> revert c <;> decide
  exact this c st h

/-- A byte sequence is read back, and what follows it is left. -/
theorem takeSeq_encodeSeq (data rest : List Byte) : takeSeq (encodeSeq data ++ rest) = .ok (data, rest) := by
  induction data with
  | nil => cases rest <;> simp [encodeSeq, takeSeq]
  | cons b data ih => simp [encodeSeq, takeSeq, ih]

/-- What is read as a byte sequence was one. -/
theorem encodeSeq_of_takeSeq {bytes data rest : List Byte} (h : takeSeq bytes = .ok (data, rest)) :
    bytes = encodeSeq data ++ rest := by
  induction bytes using takeSeq.induct generalizing data rest with
  | case1 => simp [takeSeq] at h
  | case2 => simp [takeSeq] at h; obtain ⟨rfl, rfl⟩ := h; rfl
  | case3 => simp [takeSeq] at h
  | case4 m h0 h1 => simp [takeSeq, h0, h1] at h
  | case5 b rest => simp [takeSeq] at h; obtain ⟨rfl, rfl⟩ := h; rfl
  | case6 b r data' rest' hr _ ih =>
    simp [takeSeq, hr] at h
    obtain ⟨rfl, rfl⟩ := h
    rw [ih hr]; rfl
  | case7 b r e hr => simp [takeSeq, hr] at h
  | case8 m b r h0 h1 => simp [takeSeq, h0, h1] at h

/-! ### The operand conditions, as propositions -/

@[simp] theorem wellFormed_send (id : Byte) (n : TxLen) (present : Bool) (pay : List Byte) :
    (Instr.send id n present pay).wellFormed = true ↔ (present = false → pay = []) := by
  cases present <;> simp [Instr.wellFormed]

@[simp] theorem wellFormed_tLen (b : Byte) :
    (Instr.tLen b).wellFormed = true ↔ 1 ≤ b.toNat ∧ b.toNat ≤ 250 := decide_eq_true_iff

@[simp] theorem wellFormed_tLenOvf (b : Byte) : (Instr.tLenOvf b).wellFormed = true ↔ 250 < b.toNat :=
  decide_eq_true_iff

@[simp] theorem wellFormed_frame (id : Byte) (payload : List Byte) (check : Byte) :
    (Instr.frame id payload check).wellFormed = true ↔ payload.length ≤ 250 := decide_eq_true_iff

/-- The decode map answers a well-formed transition of the state, carrying the byte, which the registers
select. -/
theorem transitionOf_spec (regs : DecodeRegs) (st : ParserState) (b : Byte) :
    (transitionOf regs st b).format = .rxdec ∧ (transitionOf regs st b).wellFormed = true ∧
      (transitionOf regs st b).selectedBy regs = true ∧ encode (transitionOf regs st b) = [b, st.code] := by
  have hpos : ∀ b : Byte, b ≠ 0#8 → 1 ≤ b.toNat := by
    intro b hb
    have : b.toNat ≠ 0 := fun h => hb (BitVec.eq_of_toNat_eq h)
    omega
  cases st <;> simp only [transitionOf]
  · split <;> simp_all [Instr.format, Instr.wellFormed, Instr.selectedBy, encode]
  · simp [Instr.format, Instr.wellFormed, Instr.selectedBy, encode]
  · split
    · simp_all [Instr.format, Instr.wellFormed, Instr.selectedBy, encode]
    · have := hpos b ‹_›
      split <;> simp_all [Instr.format, Instr.wellFormed, Instr.selectedBy, encode]
  · split <;> simp_all [Instr.format, Instr.wellFormed, Instr.selectedBy, encode]
  · split <;> simp_all [Instr.format, Instr.wellFormed, Instr.selectedBy, encode]

/-- Bytes that the wire decoder reads as a frame are that frame's encoding, and the frame is well-formed. -/
theorem eq_encode_of_decodeWire {bytes rest : List Byte} {i : Instr} (h : decodeWire bytes = .ok (i, rest)) :
    ∃ id p c, i = .frame id p c ∧ p.length ≤ 250 ∧ bytes = encode i ++ rest := by
  unfold decodeWire at h
  split at h
  · simp at h
  · split at h
    rotate_left
    · simp at h
    rename_i hs
    subst hs
    split at h
    rotate_left
    · simp at h
    rename_i id len r
    split at h
    rotate_left
    · simp at h
    rename_i hle
    split at h
    rotate_left
    · simp at h
    rename_i c r' hd
    simp at h
    obtain ⟨rfl, rfl⟩ := h
    have hlen : len.toNat < r.length := by
      by_contra hh
      rw [List.drop_eq_nil_of_le (by omega)] at hd
      simp at hd
    have hmin : min len.toNat r.length = len.toNat := by omega
    have happ := List.take_append_drop len.toNat r
    rw [hd] at happ
    refine ⟨id, r.take len.toNat, c, rfl, ?_, ?_⟩
    · simpa [hmin, Config.maxPayload] using hle
    · simp [encode, hmin, happ]

/-- A frame's encoding is read back, and what follows it is left. -/
theorem decodeWire_encode_frame (id c : Byte) {p : List Byte} (rest : List Byte) (hp : p.length ≤ 250) :
    decodeWire (encode (.frame id p c) ++ rest) = .ok (.frame id p c, rest) := by
  have hl : p.length % 256 = p.length := Nat.mod_eq_of_lt (by omega)
  simp [encode, decodeWire, Config.maxPayload, hl, hp]

/-- The bytes of one whole frame are the row FRAME. -/
@[simp] theorem decodeStream_encode_frame (id c : Byte) {p : List Byte} (hp : p.length ≤ 250) :
    decodeStream (encode (.frame id p c)) = .frame id p c := by
  have h := decodeWire_encode_frame id c [] hp
  rw [List.append_nil] at h
  simp [decodeStream, h]

/-- What the bytes of the wire are: RXS of them, or the frame whose encoding they are. -/
theorem decodeStream_cases (bytes : List Byte) :
    decodeStream bytes = .rxs bytes ∨
      ∃ id p c, p.length ≤ 250 ∧ decodeStream bytes = .frame id p c ∧ bytes = encode (.frame id p c) := by
  unfold decodeStream
  split
  · rename_i i h
    obtain ⟨id, p, c, rfl, hp, hb⟩ := eq_encode_of_decodeWire h
    exact .inr ⟨id, p, c, hp, rfl, by simpa using hb⟩
  · exact .inl rfl

end Sys2Proof
end

