-- ==== Sys2Proof/Laws/RxBuf.lean ====
section
/-! SUPPORT. The receive buffer: read after write, and the canonical form. -/

namespace Sys2Proof.Machine

namespace RxBuf

/-- What was written at an index, after a write. -/
theorem written_write (buf : RxBuf) (a : Nat) (v : Byte) (k : Nat) :
    (buf.write a v).written k = if k = a then some v else buf.written k := by
  induction buf with
  | nil => rfl
  | cons c rest ih =>
    obtain ⟨i, w⟩ := c
    simp only [RxBuf.write]
    split
    · simp only [RxBuf.written]
    · split
      · subst_vars
        simp only [RxBuf.written]
        by_cases h : k = i <;> simp [h]
      · simp only [RxBuf.written, ih]
        by_cases h : k = i
        · subst h; simp [Ne.symm ‹¬ a = k›]
        · simp [h]

/-- A read at the index just written. -/
@[simp] theorem read_write_self (buf : RxBuf) (a : Nat) (v : Byte) : (buf.write a v).read a = v := by
  simp [RxBuf.read, written_write]

/-- A read at any other index. -/
theorem read_write_other (buf : RxBuf) {a k : Nat} (v : Byte) (h : k ≠ a) :
    (buf.write a v).read k = buf.read k := by
  simp [RxBuf.read, written_write, h]

/-- A larger lower bound is a stronger claim. -/
theorem wfFrom_mono {lo hi : Nat} (h : lo ≤ hi) : ∀ {buf : RxBuf}, buf.wfFrom hi = true → buf.wfFrom lo = true
  | [], _ => rfl
  | (k, _) :: _, hw => by
    simp only [RxBuf.wfFrom, Bool.and_eq_true, decide_eq_true_eq] at hw ⊢
    exact ⟨⟨by omega, hw.1.2⟩, hw.2⟩

/-- A write inside the space keeps the canonical form. -/
theorem wfFrom_write {lo a : Nat} (v : Byte) (hl : lo ≤ a) (ha : a < Config.maxPayload) :
    ∀ {buf : RxBuf}, buf.wfFrom lo = true → (buf.write a v).wfFrom lo = true := by
  intro buf
  induction buf generalizing lo with
  | nil => intro _; simp [RxBuf.write, RxBuf.wfFrom, hl, ha]
  | cons c rest ih =>
    obtain ⟨k, w⟩ := c
    intro hw
    simp only [RxBuf.wfFrom, Bool.and_eq_true, decide_eq_true_eq] at hw
    simp only [RxBuf.write]
    split
    · simp only [RxBuf.wfFrom, Bool.and_eq_true, decide_eq_true_eq]
      exact ⟨⟨hl, ha⟩, ⟨by omega, hw.1.2⟩, hw.2⟩
    · split
      · subst_vars
        simp only [RxBuf.wfFrom, Bool.and_eq_true, decide_eq_true_eq]
        exact ⟨⟨hl, ha⟩, hw.2⟩
      · simp only [RxBuf.wfFrom, Bool.and_eq_true, decide_eq_true_eq]
        exact ⟨hw.1, ih (by omega) hw.2⟩

/-- The canonical form after the one write the machine makes. -/
theorem wf_write {buf : RxBuf} {a : Nat} (v : Byte) (ha : a < Config.maxPayload) (h : buf.wf = true) :
    (buf.write a v).wf = true := wfFrom_write v (Nat.zero_le a) ha h

/-- Nothing below the lower bound is listed. -/
theorem written_eq_none_of_wfFrom {lo k : Nat} (h : k < lo) :
    ∀ {buf : RxBuf}, buf.wfFrom lo = true → buf.written k = none
  | [], _ => rfl
  | (i, _) :: rest, hw => by
    simp only [RxBuf.wfFrom, Bool.and_eq_true, decide_eq_true_eq] at hw
    have hne : k ≠ i := by omega
    have hrest := written_eq_none_of_wfFrom (k := k) (lo := i + 1) (by omega) hw.2
    simpa [RxBuf.written, hne] using hrest

/-- Buffers in canonical form that hold the same bytes at the same indices are the same list. -/
theorem eq_of_written_eq {lo : Nat} : ∀ {x y : RxBuf}, x.wfFrom lo = true → y.wfFrom lo = true →
    (∀ k, x.written k = y.written k) → x = y
  | [], [], _, _, _ => rfl
  | [], (j, v) :: y, _, _, h => by simpa [RxBuf.written] using h j
  | (i, u) :: x, [], _, _, h => by simpa [RxBuf.written] using h i
  | (i, u) :: x, (j, v) :: y, hx, hy, h => by
    simp only [RxBuf.wfFrom, Bool.and_eq_true, decide_eq_true_eq] at hx hy
    have hxi := written_eq_none_of_wfFrom (k := i) (Nat.lt_succ_self i) hx.2
    have hyj := written_eq_none_of_wfFrom (k := j) (Nat.lt_succ_self j) hy.2
    have hij : i = j := by
      rcases Nat.lt_trichotomy i j with hlt | heq | hgt
      · have := h i
        have hy' := written_eq_none_of_wfFrom (k := i) (lo := j + 1) (by omega) hy.2
        simp [RxBuf.written, hy', Nat.ne_of_lt hlt] at this
      · exact heq
      · have := h j
        have hx' := written_eq_none_of_wfFrom (k := j) (lo := i + 1) (by omega) hx.2
        simp [RxBuf.written, hx', Nat.ne_of_lt hgt] at this
    subst hij
    have huv : u = v := by simpa [RxBuf.written] using h i
    subst huv
    have hrest : ∀ k, RxBuf.written x k = RxBuf.written y k := by
      intro k
      by_cases hk : k = i
      · subst hk; rw [hxi, hyj]
      · simpa [RxBuf.written, hk] using h k
    rw [eq_of_written_eq hx.2 hy.2 hrest]

end RxBuf

namespace State

/-- The byte stored is read back. -/
@[simp] theorem storeByte_rxByte_self (s : State) (b : Byte) : (s.storeByte b).rxByte s.cursor.toNat = b := by
  simp [State.rxByte]

/-- Every other byte stays. -/
theorem storeByte_rxByte_other (s : State) (b : Byte) {a : Nat} (h : a ≠ s.cursor.toNat) :
    (s.storeByte b).rxByte a = s.rxByte a := by
  simp [State.rxByte, RxBuf.read_write_other _ _ h]

/-- A view that ends at or below the cursor is not touched by the store. -/
theorem storeByte_rxView (s : State) (b : Byte) {k : Nat} (h : k ≤ s.cursor.toNat) :
    (s.storeByte b).rxView k = s.rxView k := by
  simp only [State.rxView]
  refine List.map_congr_left fun a ha => storeByte_rxByte_other s b ?_
  have := List.mem_range.mp ha
  omega

/-- The view that takes in the byte just stored. -/
theorem storeByte_rxView_succ (s : State) (b : Byte) :
    (s.storeByte b).rxView (s.cursor.toNat + 1) = s.rxView s.cursor.toNat ++ [b] := by
  rw [rxView_succ, storeByte_rxView s b (Nat.le_refl _), storeByte_rxByte_self]

end State

end Sys2Proof.Machine
end

