-- ==== Sys2Proof/Laws/Ops.lean ====
section
/-! SUPPORT. What each shared operation can answer, once. -/

namespace Sys2Proof.Machine

/-! ### Sequencing and the guards -/

@[simp] theorem andThen_next (s : State) (f : State → Outcome) : andThen (.next s) f = f s := rfl

@[simp] theorem andThen_fault (r : Fault) (f : State → Outcome) : andThen (.fault r) f = .fault r := rfl

@[simp] theorem andThen_refused (r : Refusal) (f : State → Outcome) : andThen (.refused r) f = .refused r := rfl

/-- A sequence answers a next state when both parts do. -/
theorem andThen_eq_next {o : Outcome} {f : State → Outcome} {t : State} :
    andThen o f = .next t ↔ ∃ s, o = .next s ∧ f s = .next t := by
  cases o <;> simp [andThen]

theorem andThen_assoc (o : Outcome) (f g : State → Outcome) :
    andThen (andThen o f) g = andThen o fun s => andThen (f s) g := by
  cases o <;> rfl

theorem whenReady_of_ready {s : State} (h : s.ready = true) (o : Outcome) : whenReady s o = o := by
  simp [whenReady, h]

theorem whenReady_of_not_ready {s : State} (h : s.ready = false) (o : Outcome) :
    whenReady s o = .refused .notReady := by simp [whenReady, h]

theorem whenReady_eq_next {s t : State} {o : Outcome} :
    whenReady s o = .next t ↔ s.ready = true ∧ o = .next t := by
  unfold whenReady; split <;> simp_all

theorem whenSelected_of {s : State} {p : Prop} [Decidable p] (h : s.ready = true) (hp : p) (o : Outcome) :
    whenSelected s p o = o := by simp [whenSelected, whenReady, h, hp]

theorem whenSelected_of_not {s : State} {p : Prop} [Decidable p] (h : s.ready = true) (hp : ¬p) (o : Outcome) :
    whenSelected s p o = .refused .transitionNotSelected := by simp [whenSelected, whenReady, h, hp]

theorem whenSelected_eq_next {s t : State} {p : Prop} [Decidable p] {o : Outcome} :
    whenSelected s p o = .next t ↔ s.ready = true ∧ p ∧ o = .next t := by
  unfold whenSelected
  rw [whenReady_eq_next]
  split <;> simp_all

/-! ### The store and the event -/

theorem storePayload_eq_next {b : Byte} {s t : State} :
    storePayload b s = .next t ↔ s.cursor.toNat < 250 ∧ t = s.storeByte b := by
  unfold storePayload Config.maxPayload
  split <;> simp_all [eq_comm]

theorem storePayload_of_lt {b : Byte} {s : State} (h : s.cursor.toNat < 250) :
    storePayload b s = .next (s.storeByte b) := storePayload_eq_next.mpr ⟨h, rfl⟩

theorem emitMessage_eq_next {s t : State} :
    emitMessage s = .next t ↔ s.msgLen.toNat ≤ 250 ∧ t = s.emit s.messageEvent := by
  unfold emitMessage Config.maxPayload
  split <;> simp_all [eq_comm]

theorem emitMessage_of_le {s : State} (h : s.msgLen.toNat ≤ 250) :
    emitMessage s = .next (s.emit s.messageEvent) := emitMessage_eq_next.mpr ⟨h, rfl⟩

/-- The cursor after a store, as a number. -/
theorem cursor_succ_toNat {s : State} (h : s.cursor.toNat < 250) :
    (s.cursor + 1#8).toNat = s.cursor.toNat + 1 := by
  simp [BitVec.toNat_add]; omega

/-! ### Anomalies -/

@[simp] theorem raise_syncLoss (b : Byte) (s : State) : raise (.syncLoss b) s = s := rfl

theorem raise_lengthOverflow (b : Byte) (s : State) :
    raise (.lengthOverflow b) s = { s with
      msgLen := b, crc := crc8Update s.crc b, framesRejected := s.framesRejected + 1, state := .idle } := rfl

theorem raise_checksumMismatch (b c : Byte) (s : State) :
    raise (.checksumMismatch b c) s = { s with framesRejected := s.framesRejected + 1, state := .idle } := rfl

@[simp] theorem raise_encodeRejected (n : TxLen) (p : Bool) (s : State) :
    raise (.encodeRejected n p) s = s.answer (.ok false) := rfl

@[simp] theorem raise_initRejected (m k : Bool) (s : State) :
    raise (.initRejected m k) s = s.answer (.ok false) := rfl

end Sys2Proof.Machine
end

