-- ==== Sys2Proof/Laws/Parser.lean ====
section
/-! SUPPORT. What one received byte can do, once for all proofs, and the sequences. -/

namespace Sys2Proof.Machine

/-- The inversion of `parserByte`: if it answers a next state, one of these ten cases holds. -/
theorem parserByte_cases {b : Byte} {s t : State} (h : parserByte b s = .next t) :
    (s.state = .idle ∧ b = 0xA5#8 ∧ t = { s with crc := 0#8, cursor := 0#8, state := .gotSync }) ∨
    (s.state = .idle ∧ b ≠ 0xA5#8 ∧ t = s) ∨
    (s.state = .gotSync ∧ t = { s with msgId := b, crc := crc8Update s.crc b, state := .gotId }) ∨
    (s.state = .gotId ∧ 250 < b.toNat ∧ t = { s with
      msgLen := b, crc := crc8Update s.crc b, framesRejected := s.framesRejected + 1, state := .idle }) ∨
    (s.state = .gotId ∧ b = 0#8 ∧
      t = { s with msgLen := b, crc := crc8Update s.crc b, state := .gotPayload }) ∨
    (s.state = .gotId ∧ b ≠ 0#8 ∧ b.toNat ≤ 250 ∧
      t = { s with msgLen := b, crc := crc8Update s.crc b, state := .gotLen }) ∨
    (s.state = .gotLen ∧ s.cursor.toNat < 250 ∧ s.cursor + 1#8 = s.msgLen ∧
      t = (s.storeByte b).goto .gotPayload) ∨
    (s.state = .gotLen ∧ s.cursor.toNat < 250 ∧ s.cursor + 1#8 ≠ s.msgLen ∧
      t = (s.storeByte b).goto .gotLen) ∨
    (s.state = .gotPayload ∧ b = s.crc ∧ s.msgLen.toNat ≤ 250 ∧
      t = (s.countReceived.goto .idle).emit s.messageEvent) ∨
    (s.state = .gotPayload ∧ b ≠ s.crc ∧ t = s.countRejected.goto .idle) := by
  unfold parserByte at h
  cases hst : s.state <;> simp only [hst] at h
  · split at h
    · rename_i hb
      left; simp at h; exact ⟨rfl, hb, h.symm⟩
    · rename_i hb
      right; left
      refine ⟨rfl, hb, ?_⟩
      simp [State.goto] at h
      rw [← h, ← hst]
  · right; right; left
    simp [State.goto, State.foldCrc] at h
    exact ⟨rfl, h.symm⟩
  · split at h
    · rename_i hb
      right; right; right; left
      simp [State.goto, State.foldCrc, State.countRejected, inc] at h
      exact ⟨rfl, hb, h.symm⟩
    · rename_i hb
      split at h
      · rename_i h0
        right; right; right; right; left
        simp [State.goto, State.foldCrc] at h
        exact ⟨rfl, h0, h.symm⟩
      · rename_i h0
        right; right; right; right; right; left
        simp [State.goto, State.foldCrc] at h
        exact ⟨rfl, h0, by simpa [Config.maxPayload] using hb, h.symm⟩
  · obtain ⟨u, hu, hg⟩ := andThen_eq_next.mp h
    obtain ⟨hc, rfl⟩ := storePayload_eq_next.mp hu
    simp only [State.storeByte_cursor, State.storeByte_msgLen] at hg
    right; right; right; right; right; right
    by_cases he : s.cursor + 1#8 = s.msgLen
    · left; simp [he] at hg; exact ⟨rfl, hc, he, hg.symm⟩
    · right; left; simp [he] at hg; exact ⟨rfl, hc, he, hg.symm⟩
  · right; right; right; right; right; right; right; right
    split at h
    · rename_i hb
      left
      obtain ⟨hl, rfl⟩ := emitMessage_eq_next.mp h
      exact ⟨rfl, hb, hl, rfl⟩
    · rename_i hb
      right; simp at h; exact ⟨rfl, hb, h.symm⟩

/-! ### One lemma a state: what `parserByte` answers -/

theorem parserByte_sync {s : State} (h : s.state = .idle) :
    parserByte 0xA5#8 s = .next { s with crc := 0#8, cursor := 0#8, state := .gotSync } := by
  simp [parserByte, h, Config.sync, Config.crcInit]

theorem parserByte_skip {s : State} {b : Byte} (h : s.state = .idle) (hb : b ≠ 0xA5#8) :
    parserByte b s = .next s := by
  have : s.goto .idle = s := by rw [← h]; rfl
  simp [parserByte, h, Config.sync, hb, this]

theorem parserByte_id {s : State} {b : Byte} (h : s.state = .gotSync) :
    parserByte b s = .next { s with msgId := b, crc := crc8Update s.crc b, state := .gotId } := by
  simp [parserByte, h, State.foldCrc, State.goto]

theorem parserByte_len {s : State} {b : Byte} (h : s.state = .gotId) (h0 : b ≠ 0#8) (hb : b.toNat ≤ 250) :
    parserByte b s = .next { s with msgLen := b, crc := crc8Update s.crc b, state := .gotLen } := by
  have : ¬ 250 < b.toNat := by omega
  simp [parserByte, h, h0, this, Config.maxPayload, State.foldCrc, State.goto]

theorem parserByte_len0 {s : State} (h : s.state = .gotId) :
    parserByte 0#8 s = .next { s with msgLen := 0#8, crc := crc8Update s.crc 0#8, state := .gotPayload } := by
  simp [parserByte, h, Config.maxPayload, State.foldCrc, State.goto]

theorem parserByte_lenOvf {s : State} {b : Byte} (h : s.state = .gotId) (hb : 250 < b.toNat) :
    parserByte b s = .next { s with
      msgLen := b, crc := crc8Update s.crc b, framesRejected := s.framesRejected + 1, state := .idle } := by
  simp [parserByte, h, hb, Config.maxPayload, State.foldCrc, State.goto, State.countRejected, inc]

theorem parserByte_data {s : State} {b : Byte} (h : s.state = .gotLen) (hc : s.cursor.toNat < 250)
    (hn : s.cursor + 1#8 ≠ s.msgLen) : parserByte b s = .next ((s.storeByte b).goto .gotLen) := by
  simp [parserByte, h, storePayload_of_lt hc, hn]

theorem parserByte_dataEnd {s : State} {b : Byte} (h : s.state = .gotLen) (hc : s.cursor.toNat < 250)
    (hn : s.cursor + 1#8 = s.msgLen) : parserByte b s = .next ((s.storeByte b).goto .gotPayload) := by
  simp [parserByte, h, storePayload_of_lt hc, hn]

theorem parserByte_accept {s : State} (h : s.state = .gotPayload) (hl : s.msgLen.toNat ≤ 250) :
    parserByte s.crc s = .next ((s.countReceived.goto .idle).emit s.messageEvent) := by
  simp only [parserByte, h, if_true]
  exact emitMessage_of_le (by simpa using hl)

theorem parserByte_reject {s : State} {b : Byte} (h : s.state = .gotPayload) (hb : b ≠ s.crc) :
    parserByte b s = .next (s.countRejected.goto .idle) := by
  simp [parserByte, h, hb]

/-! ### What every received byte leaves alone -/

theorem parserByte_ready {b : Byte} {s t : State} (h : parserByte b s = .next t) : t.ready = s.ready := by
  rcases parserByte_cases h with
    ⟨_, _, rfl⟩ | ⟨_, _, rfl⟩ | ⟨_, rfl⟩ | ⟨_, _, rfl⟩ | ⟨_, _, rfl⟩ | ⟨_, _, _, rfl⟩ |
    ⟨_, _, _, rfl⟩ | ⟨_, _, _, rfl⟩ | ⟨_, _, _, rfl⟩ | ⟨_, _, rfl⟩ <;> rfl

/-! ### Sequences -/

@[simp] theorem parserBytes_nil (s : State) : parserBytes [] s = .next s := rfl

theorem parserBytes_cons (b : Byte) (rest : List Byte) (s : State) :
    parserBytes (b :: rest) s = andThen (parserByte b s) (parserBytes rest) := rfl

theorem parserBytes_append (x y : List Byte) (s : State) :
    parserBytes (x ++ y) s = andThen (parserBytes x s) (parserBytes y) := by
  induction x generalizing s with
  | nil => rfl
  | cons b x ih =>
    simp only [List.cons_append, parserBytes_cons, andThen_assoc]
    congr 1; funext u; exact ih u

/-- Whatever one byte keeps, a sequence keeps. -/
theorem parserBytes_induct {P : State → State → Prop} (refl : ∀ s, P s s)
    (step : ∀ {b s t u}, parserByte b s = .next t → P t u → P s u) :
    ∀ {bytes : List Byte} {s t : State}, parserBytes bytes s = .next t → P s t := by
  intro bytes
  induction bytes with
  | nil => intro s t h; simp at h; exact h ▸ refl s
  | cons b rest ih =>
    intro s t h
    obtain ⟨u, hu, hr⟩ := andThen_eq_next.mp (parserBytes_cons b rest s ▸ h)
    exact step hu (ih hr)

theorem parserBytes_ready {bytes : List Byte} {s t : State} (h : parserBytes bytes s = .next t) :
    t.ready = s.ready :=
  parserBytes_induct (P := fun s t => t.ready = s.ready) (fun _ => rfl)
    (fun h1 h2 => h2.trans (parserByte_ready h1)) h

end Sys2Proof.Machine
end

