-- ==== Sys2Proof/Laws/Frames.lean ====
section
/-! SUPPORT. A frame's bytes up to its checksum, whatever the checksum then is. -/

namespace Sys2Proof.Machine

/-- Only what the parser writes within a frame differs: its registers and the buffer. -/
def State.SameBesideParser (s t : State) : Prop :=
  t = { s with state := t.state, msgId := t.msgId, msgLen := t.msgLen, cursor := t.cursor, crc := t.crc, rxBuf := t.rxBuf }

theorem State.SameBesideParser.refl (s : State) : s.SameBesideParser s := rfl

theorem State.SameBesideParser.trans {s t u : State} (h : s.SameBesideParser t) (k : t.SameBesideParser u) :
    s.SameBesideParser u := by
  unfold State.SameBesideParser at *
  rw [k]
  conv_lhs => rw [h]

/-- The payload: all of it is stored from the cursor on, folded, and the checksum is awaited. -/
theorem parserBytes_payload {p : List Byte} : ∀ {s : State}, p ≠ [] → s.state = .gotLen →
    s.msgLen.toNat ≤ 250 → s.cursor.toNat + p.length = s.msgLen.toNat →
    ∃ t, parserBytes p s = .next t ∧ s.SameBesideParser t ∧ t.state = .gotPayload ∧ t.msgId = s.msgId ∧
      t.msgLen = s.msgLen ∧ t.cursor = s.msgLen ∧ t.crc = crcFold s.crc p ∧
      t.rxView t.cursor.toNat = s.rxView s.cursor.toNat ++ p ∧
      ∀ a, t.cursor.toNat ≤ a → t.rxByte a = s.rxByte a := by
  induction p with
  | nil => intro s h; exact absurd rfl h
  | cons b p ih =>
    intro s _ hst hle hlen
    simp only [List.length_cons] at hlen
    have hc : s.cursor.toNat < 250 := by omega
    have hs := cursor_succ_toNat hc
    by_cases hp : p = []
    · subst hp
      have he : s.cursor + 1#8 = s.msgLen := BitVec.eq_of_toNat_eq (by rw [hs]; simpa using hlen)
      refine ⟨(s.storeByte b).goto .gotPayload, ?_, rfl, rfl, rfl, rfl, he, rfl, ?_, ?_⟩
      · rw [parserBytes_cons, parserByte_dataEnd hst hc he]; rfl
      · simp only [State.goto_cursor, State.storeByte_cursor, hs]
        exact State.storeByte_rxView_succ s b
      · intro a ha
        simp only [State.goto_cursor, State.storeByte_cursor, hs] at ha
        exact State.storeByte_rxByte_other s b (by omega)
    · have hpos : 0 < p.length := List.length_pos_of_ne_nil hp
      have hne : s.cursor + 1#8 ≠ s.msgLen := by
        intro he; rw [he] at hs; omega
      obtain ⟨t, h1, h2, h3, h4, h5, h6, h7, h8, h9⟩ :=
        ih (s := (s.storeByte b).goto .gotLen) hp rfl hle (by
          simp only [State.goto_cursor, State.storeByte_cursor, hs, State.goto_msgLen, State.storeByte_msgLen]
          omega)
      have hcur : t.cursor.toNat = s.msgLen.toNat := by rw [h6]; rfl
      refine ⟨t, ?_, ?_, h3, h4, h5, h6, h7, ?_, ?_⟩
      · rw [parserBytes_cons, parserByte_data hst hc hne]; exact h1
      · exact State.SameBesideParser.trans (t := (s.storeByte b).goto .gotLen) rfl h2
      · rw [h8]
        simp only [State.goto_cursor, State.storeByte_cursor, hs]
        rw [State.rxView_congr (s := s.storeByte b) (t := (s.storeByte b).goto .gotLen) rfl,
          State.storeByte_rxView_succ]
        simp
      · intro a ha
        rw [h9 a ha]
        exact State.storeByte_rxByte_other s b (by omega)

/-- From `Idle`, the sync marker, an id, a legal length and as many payload bytes: the checksum is awaited,
the running CRC is that of the bytes from the id on, and the payload stands at the buffer's start. -/
theorem parserBytes_frameBody {s : State} (m : Byte) {p : List Byte} (hst : s.state = .idle)
    (hp : p.length ≤ 250) :
    ∃ t, parserBytes ([0xA5#8, m, BitVec.ofNat 8 p.length] ++ p) s = .next t ∧ s.SameBesideParser t ∧
      t.state = .gotPayload ∧ t.msgId = m ∧ t.msgLen = BitVec.ofNat 8 p.length ∧
      t.crc = crc8 ([m, BitVec.ofNat 8 p.length] ++ p) ∧ t.rxView p.length = p ∧
      ∀ a, p.length ≤ a → t.rxByte a = s.rxByte a := by
  have hlen : (BitVec.ofNat 8 p.length).toNat = p.length := by simp; omega
  let u : State := { s with msgId := m, crc := crc8Update 0#8 m, cursor := 0#8, state := .gotId }
  have hu : parserBytes ([0xA5#8, m, BitVec.ofNat 8 p.length] ++ p) s =
      andThen (parserByte (BitVec.ofNat 8 p.length) u) (parserBytes p) := by
    simp only [List.cons_append, parserBytes_cons, parserByte_sync hst, andThen_next, List.nil_append]
    rw [parserByte_id rfl]
    rfl
  rw [hu]
  by_cases h0 : p = []
  · subst h0
    refine ⟨{ u with msgLen := 0#8, crc := crc8Update u.crc 0#8, state := .gotPayload },
      ?_, rfl, rfl, rfl, rfl, rfl, rfl, fun _ _ => rfl⟩
    show andThen (parserByte 0#8 u) (parserBytes []) = _
    rw [parserByte_len0 rfl, andThen_next, parserBytes_nil]
  · have hpos : 0 < p.length := List.length_pos_of_ne_nil h0
    have hb0 : BitVec.ofNat 8 p.length ≠ 0#8 := by
      intro h; rw [h] at hlen; simp at hlen; omega
    rw [parserByte_len rfl hb0 (by omega), andThen_next]
    obtain ⟨t, h1, h2, h3, h4, h5, h6, h7, h8, h9⟩ := parserBytes_payload (p := p)
      (s := { u with msgLen := BitVec.ofNat 8 p.length, crc := crc8Update u.crc (BitVec.ofNat 8 p.length), state := .gotLen })
      h0 rfl (by simp only [hlen]; exact hp) (by simp [u]; omega)
    have hcur : t.cursor.toNat = p.length := by rw [h6]; exact hlen
    refine ⟨t, h1, ?_, h3, h4, h5, h7, ?_, ?_⟩
    · exact State.SameBesideParser.trans (t := { u with msgLen := BitVec.ofNat 8 p.length, crc := crc8Update u.crc (BitVec.ofNat 8 p.length), state := .gotLen }) rfl h2
    · rw [hcur] at h8
      rw [h8]
      simp [u]
    · intro a ha
      exact h9 a (by omega)

end Sys2Proof.Machine
end

