-- ==== Sys2Proof/Laws/Meanings.lean ====
section
/-! SUPPORT. For each instruction, when its meaning answers a next state and which. -/

namespace Sys2Proof.Machine

variable {s t : State} {b : Byte}

theorem next_eq_next {s t : State} : (Host.Outcome.next s : Outcome) = .next t ↔ t = s :=
  ⟨fun h => by cases h; rfl, fun h => h ▸ rfl⟩

/-! ### The CRC engine and the context operations -/

theorem exec_crcu_eq_next {r : Byte} :
    exec (.crcu r b) s = .next t ↔ t = s.answer (.byte (crc8Update r b)) := next_eq_next

theorem exec_crc8_eq_next {data : List Byte} :
    exec (.crc8 data) s = .next t ↔ t = s.answer (.byte (crc8 data)) := next_eq_next

theorem exec_reset_eq_next : exec .reset s = .next t ↔ s.ready = true ∧ t = s.clearParser := by
  rw [show exec .reset s = whenReady s (.next s.clearParser) from rfl, whenReady_eq_next, next_eq_next]

theorem exec_rdrx_eq_next : exec .rdrx s = .next t ↔ s.ready = true ∧ t = s.answer (.count s.framesRx) := by
  rw [show exec .rdrx s = whenReady s _ from rfl, whenReady_eq_next, next_eq_next]

theorem exec_rdrej_eq_next :
    exec .rdrej s = .next t ↔ s.ready = true ∧ t = s.answer (.count s.framesRejected) := by
  rw [show exec .rdrej s = whenReady s _ from rfl, whenReady_eq_next, next_eq_next]

theorem exec_rdtx_eq_next : exec .rdtx s = .next t ↔ s.ready = true ∧ t = s.answer (.count s.framesTx) := by
  rw [show exec .rdtx s = whenReady s _ from rfl, whenReady_eq_next, next_eq_next]

/-- A successful INIT. -/
theorem exec_init_true : exec (.init true true) s = .next { s with
    ready := true, state := .idle, msgId := 0#8, msgLen := 0#8, cursor := 0#8, crc := 0#8
    framesRx := 0, framesRejected := 0, framesTx := 0, hasMsg := true, hasSink := true
    results := s.results ++ [.ok true] } := rfl

/-- INIT with a collaborator absent. -/
theorem exec_init_of_absent {m k : Bool} (h : (m && k) = false) :
    exec (.init m k) s = .next (s.answer (.ok false)) := by
  show execInit m k s = _
  simp [execInit, initOk, h]

/-! ### The encoder -/

theorem sendOk_eq_true {n : TxLen} {p : Bool} :
    sendOk n p = true ↔ n.toNat ≤ 250 ∧ (p = false → n = 0) := by
  have h : decide (Config.maxPayload < n.toNat) = false ↔ n.toNat ≤ 250 := by
    rw [decide_eq_false_iff_not]; exact Nat.not_lt
  unfold sendOk
  cases p <;> simp [h]

theorem sendOk_eq_false {n : TxLen} {p : Bool} :
    sendOk n p = false ↔ 250 < n.toNat ∨ (p = false ∧ n ≠ 0) := by
  rw [← Bool.not_eq_true, sendOk_eq_true, not_and_or, Nat.not_le]
  simp

/-- The two ways SEND completes. -/
theorem exec_send_eq_next {id : Byte} {n : TxLen} {p : Bool} {pay : List Byte} :
    exec (.send id n p pay) s = .next t ↔ s.ready = true ∧
      ((sendOk n p = true ∧ n.toNat ≤ txReadable p pay ∧
          t = ((s.emit (.sink (sendBurst id n pay))).countSent).answer (.ok true)) ∨
        (sendOk n p = false ∧ t = s.answer (.ok false))) := by
  rw [show exec (.send id n p pay) s = whenReady s _ from rfl, whenReady_eq_next]
  refine and_congr_right fun _ => ?_
  cases hk : sendOk n p
  · simp [eq_comm]
  · by_cases hl : txReadable p pay < n.toNat
    · simp [hl, Nat.not_le.mpr hl]
    · simp [hl, Nat.not_lt.mp hl, eq_comm]

/-- The loop of the encoder: the bytes so far, the payload, the fold. -/
theorem assemble_eq (bytes : List Byte) (c : Byte) (pay : List Byte) :
    assemble bytes c pay = bytes ++ pay ++ [crcFold c pay] := by
  induction pay generalizing bytes c with
  | nil => simp [assemble]
  | cons d rest ih => simp [assemble, ih]

/-- The burst of a SEND is its frame's bytes. -/
theorem sendBurst_eq (id : Byte) (n : TxLen) (pay : List Byte) :
    sendBurst id n pay = [0xA5#8, id, BitVec.ofNat 8 n.toNat] ++ pay.take n.toNat ++
      [crc8 ([id, BitVec.ofNat 8 n.toNat] ++ pay.take n.toNat)] := by
  simp [sendBurst, assemble_eq, txPayload, crc8_eq, Config.sync, Config.crcInit]

/-- With `n` bytes of payload the burst is the valid frame of R97. -/
theorem sendBurst_eq_frameBytes (id : Byte) {n : TxLen} {pay : List Byte} (h : n.toNat ≤ pay.length) :
    sendBurst id n pay = frameBytes id (pay.take n.toNat) := by
  simp [sendBurst_eq, frameBytes, Config.sync, Nat.min_eq_left h]

/-- A valid frame of R97 is the encoding of FRAME with the checksum the bytes have. -/
theorem encode_frame_eq_frameBytes (id : Byte) (p : List Byte) :
    encode (.frame id p (crc8 ([id, BitVec.ofNat 8 p.length] ++ p))) = frameBytes id p := by
  simp [encode, frameBytes]

/-! ### The parser -/

theorem exec_rxb_eq_next : exec (.rxb b) s = .next t ↔ s.ready = true ∧ parserByte b s = .next t := by
  rw [show exec (.rxb b) s = whenReady s _ from rfl, whenReady_eq_next]

theorem exec_rxs_eq_next {bytes : List Byte} :
    exec (.rxs bytes) s = .next t ↔ s.ready = true ∧ parserBytes bytes s = .next t := by
  rw [show exec (.rxs bytes) s = whenReady s _ from rfl, whenReady_eq_next]

theorem exec_frame_eq_next {id c : Byte} {p : List Byte} :
    exec (.frame id p c) s = .next t ↔
      s.ready = true ∧ parserBytes (wireBytes id p c) s = .next t := by
  rw [show exec (.frame id p c) s = whenReady s _ from rfl, whenReady_eq_next]

/-! ### The transitions -/

theorem exec_tSync_eq_next : exec .tSync s = .next t ↔
    s.ready = true ∧ s.state = .idle ∧ t = { s with crc := 0#8, cursor := 0#8, state := .gotSync } := by
  rw [show exec .tSync s = whenSelected s _ _ from rfl, whenSelected_eq_next, next_eq_next]
  rfl

theorem exec_tSkip_eq_next : exec (.tSkip b) s = .next t ↔
    s.ready = true ∧ (s.state = .idle ∧ b ≠ 0xA5#8) ∧ t = s := by
  rw [show exec (.tSkip b) s = whenSelected s _ _ from rfl, whenSelected_eq_next, next_eq_next]
  rfl

theorem exec_tId_eq_next : exec (.tId b) s = .next t ↔ s.ready = true ∧ s.state = .gotSync ∧
    t = { s with msgId := b, crc := crc8Update s.crc b, state := .gotId } := by
  rw [show exec (.tId b) s = whenSelected s _ _ from rfl, whenSelected_eq_next, next_eq_next]
  rfl

theorem exec_tLen_eq_next : exec (.tLen b) s = .next t ↔
    s.ready = true ∧ (s.state = .gotId ∧ 1 ≤ b.toNat ∧ b.toNat ≤ 250) ∧
    t = { s with msgLen := b, crc := crc8Update s.crc b, state := .gotLen } := by
  rw [show exec (.tLen b) s = whenSelected s _ _ from rfl, whenSelected_eq_next, next_eq_next]
  rfl

theorem exec_tLen0_eq_next : exec .tLen0 s = .next t ↔ s.ready = true ∧ s.state = .gotId ∧
    t = { s with msgLen := 0#8, crc := crc8Update s.crc 0#8, state := .gotPayload } := by
  rw [show exec .tLen0 s = whenSelected s _ _ from rfl, whenSelected_eq_next, next_eq_next]
  rfl

theorem exec_tLenOvf_eq_next : exec (.tLenOvf b) s = .next t ↔
    s.ready = true ∧ (s.state = .gotId ∧ 250 < b.toNat) ∧
    t = { s with
      msgLen := b, crc := crc8Update s.crc b, framesRejected := s.framesRejected + 1, state := .idle } := by
  rw [show exec (.tLenOvf b) s = whenSelected s _ _ from rfl, whenSelected_eq_next, next_eq_next]
  rfl

theorem exec_tData_eq_next : exec (.tData b) s = .next t ↔
    s.ready = true ∧ (s.state = .gotLen ∧ s.cursor + 1#8 ≠ s.msgLen) ∧
    s.cursor.toNat < 250 ∧ t = (s.storeByte b).goto .gotLen := by
  rw [show exec (.tData b) s = whenSelected s _ _ from rfl, whenSelected_eq_next, andThen_eq_next]
  simp [storePayload_eq_next, and_assoc, eq_comm (a := t)]

theorem exec_tDataEnd_eq_next : exec (.tDataEnd b) s = .next t ↔
    s.ready = true ∧ (s.state = .gotLen ∧ s.cursor + 1#8 = s.msgLen) ∧
    s.cursor.toNat < 250 ∧ t = (s.storeByte b).goto .gotPayload := by
  rw [show exec (.tDataEnd b) s = whenSelected s _ _ from rfl, whenSelected_eq_next, andThen_eq_next]
  simp [storePayload_eq_next, and_assoc, eq_comm (a := t)]

theorem exec_tAccept_eq_next : exec (.tAccept b) s = .next t ↔
    s.ready = true ∧ (s.state = .gotPayload ∧ b = s.crc) ∧
    s.msgLen.toNat ≤ 250 ∧ t = (s.countReceived.goto .idle).emit s.messageEvent := by
  rw [show exec (.tAccept b) s = whenSelected s _ _ from rfl, whenSelected_eq_next, emitMessage_eq_next]
  rfl

theorem exec_tReject_eq_next : exec (.tReject b) s = .next t ↔
    s.ready = true ∧ (s.state = .gotPayload ∧ b ≠ s.crc) ∧ t = s.countRejected.goto .idle := by
  rw [show exec (.tReject b) s = whenSelected s _ _ from rfl, whenSelected_eq_next, next_eq_next]
  rfl

end Sys2Proof.Machine
end

