-- ==== Sys2Proof/Laws/PerInstr.lean ====
section
/-! SUPPORT. A statement about every instruction as syntax, one lemma a constructor: the bits that
spec/opcode_table.json fixes are the ones its encoding has. -/

namespace Sys2Proof.Laws

/-- The bits of an encoding that the table's row speaks of, numbered as it numbers them: 8 bits of an OP or
WIRE row's first byte (the rest zero), 16 bits (byte, then state) of an RXDEC row. -/
def tableBits (i : Instr) : BitVec 16 :=
  match i.format, encode i with
  | .rxdec, b :: st :: _ => st ++ b
  | _, b :: _ => 0#8 ++ b
  | _, [] => 0#16

/-- The row's `mask` and `match` in spec/opcode_table.json. -/
def tablePattern : Instr → BitVec 16 × BitVec 16
  | .init _ _ => (0xF#16, 0x0#16)
  | .rxb _ => (0xF#16, 0x1#16)
  | .rxs _ => (0xF#16, 0x2#16)
  | .reset => (0xF#16, 0x3#16)
  | .send _ _ _ _ => (0xF#16, 0x4#16)
  | .rdrx => (0xF#16, 0x5#16)
  | .rdrej => (0xF#16, 0x6#16)
  | .rdtx => (0xF#16, 0x7#16)
  | .crc8 _ => (0xF#16, 0x8#16)
  | .crcu _ _ => (0xF#16, 0x9#16)
  | .tSync => (0x7FF#16, 0x0A5#16)
  | .tSkip _ => (0x700#16, 0x000#16)
  | .tId _ => (0x700#16, 0x100#16)
  | .tLen0 => (0x7FF#16, 0x200#16)
  | .tLen _ => (0x700#16, 0x200#16)
  | .tLenOvf _ => (0x700#16, 0x200#16)
  | .tData _ => (0x700#16, 0x300#16)
  | .tDataEnd _ => (0x700#16, 0x300#16)
  | .tAccept _ => (0x700#16, 0x400#16)
  | .tReject _ => (0x700#16, 0x400#16)
  | .frame _ _ _ => (0xFF#16, 0xA5#16)

end Sys2Proof.Laws

namespace Sys2Proof.Laws.FitsTable

/-- The encoding of an instruction fits its row of the opcode table. -/
def Statement (i : Instr) : Prop := tableBits i &&& (tablePattern i).1 = (tablePattern i).2

theorem init (hasMsg hasSink : Bool) : Statement (.init hasMsg hasSink) := by
  cases hasMsg <;> cases hasSink <;> unfold Statement <;> decide

/-- An OP word is its selector. -/
theorem op_word (op : Byte) (h : op &&& 0xF#8 = op) : (0#8 ++ op) &&& 0xF#16 = 0#8 ++ op := by
  revert h; revert op; decide +kernel

theorem rxb (b : Byte) : Statement (.rxb b) := op_word 1#8 (by decide)
theorem rxs (bytes : List Byte) : Statement (.rxs bytes) := op_word 2#8 (by decide)
theorem reset : Statement .reset := rfl
theorem send (id : Byte) (n : TxLen) (present : Bool) (pay : List Byte) :
    Statement (.send id n present pay) := op_word 4#8 (by decide)
theorem rdrx : Statement .rdrx := rfl
theorem rdrej : Statement .rdrej := rfl
theorem rdtx : Statement .rdtx := rfl
theorem crc8 (data : List Byte) : Statement (.crc8 data) := op_word 8#8 (by decide)
theorem crcu (running byte : Byte) : Statement (.crcu running byte) := op_word 9#8 (by decide)
theorem tSync : Statement .tSync := rfl

/-- The state half of an RXDEC word, whatever the byte. -/
theorem state_half (b : Byte) (st : ParserState) : (st.code ++ b) &&& 0x700#16 = st.code ++ 0#8 := by
  cases st <;> revert b <;> decide +kernel

theorem tSkip (b : Byte) : Statement (.tSkip b) := state_half b .idle
theorem tId (b : Byte) : Statement (.tId b) := state_half b .gotSync
theorem tLen0 : Statement .tLen0 := rfl
theorem tLen (b : Byte) : Statement (.tLen b) := state_half b .gotId
theorem tLenOvf (b : Byte) : Statement (.tLenOvf b) := state_half b .gotId
theorem tData (b : Byte) : Statement (.tData b) := state_half b .gotLen
theorem tDataEnd (b : Byte) : Statement (.tDataEnd b) := state_half b .gotLen
theorem tAccept (b : Byte) : Statement (.tAccept b) := state_half b .gotPayload
theorem tReject (b : Byte) : Statement (.tReject b) := state_half b .gotPayload
theorem frame (id : Byte) (payload : List Byte) (check : Byte) : Statement (.frame id payload check) :=
  show (0#8 ++ 0xA5#8) &&& 0xFF#16 = 0xA5#16 by decide

end Sys2Proof.Laws.FitsTable
end

