-- ==== Sys2Proof/Tests/Slice0.lean ====
section
/-! SUPPORT. The model's own tests: the WellFormed smoke tests, words decoded, one step of each instruction
against spec/95_test_vectors.md, and for each statement with hypotheses a state and operands that meet them. -/

namespace Sys2Proof.Tests

open Sys2Proof Sys2Proof.Machine

/-! ### Helpers -/

/-- The outcome is a next state with a property. -/
def nextIs (o : Outcome) (p : State → Bool) : Bool :=
  match o with
  | .next s => p s
  | .fault _ => false
  | .refused _ => false

/-- The outcome is that refusal. -/
def refusedAs (o : Outcome) (r : Refusal) : Bool :=
  match o with
  | .next _ => false
  | .fault _ => false
  | .refused q => q == r

/-- The context after INIT with the parser's registers set: `state / msg_id msg_len cursor crc`, as the
vectors write it. -/
def ctx (state : ParserState) (msgId msgLen cursor crc : Byte) (rxBuf : RxBuf) : State :=
  { State.reset with state := state, msgId := msgId, msgLen := msgLen, cursor := cursor, crc := crc, rxBuf := rxBuf }

/-- The same line of a state, to compare with a vector's. -/
def line (s : State) : ParserState × Byte × Byte × Byte × Byte := (s.state, s.msgId, s.msgLen, s.cursor, s.crc)

/-- The three counters of a state, in the vectors' order. -/
def counts (s : State) : Count × Count × Count := (s.framesRx, s.framesRejected, s.framesTx)

/-- A context at power-on (10_state.md R38): not ready, the rest whatever it is. -/
def powerOn : State := { ctx .gotId 0x42#8 7#8 9#8 0x99#8 [] with ready := false }

/-- V1 in the middle: `A5 10 03 01` received. -/
def midPayload : State := ctx .gotLen 0x10#8 3#8 1#8 0x9A#8 [(0, 0x01#8)]

/-- V1 before its last payload byte. -/
def lastPayload : State := ctx .gotLen 0x10#8 3#8 2#8 0xC1#8 [(0, 0x01#8), (1, 0x02#8)]

/-- V1 before its checksum. -/
def awaiting : State := ctx .gotPayload 0x10#8 3#8 3#8 0x40#8 [(0, 0x01#8), (1, 0x02#8), (2, 0x03#8)]

/-- V1's frame. -/
def v1 : List Byte := [0xA5#8, 0x10#8, 0x03#8, 0x01#8, 0x02#8, 0x03#8, 0x40#8]

/-! ### WellFormed: each check refuses a term that fails it -/

theorem test_wf_send_null_with_bytes : (Instr.send 0x10#8 1 false [0x01#8]).wellFormed = false := by decide
theorem test_wf_skip_sync : (Instr.tSkip 0xA5#8).wellFormed = false := by decide
theorem test_wf_len_zero : (Instr.tLen 0x00#8).wellFormed = false := by decide
theorem test_wf_len_251 : (Instr.tLen 0xFB#8).wellFormed = false := by decide
theorem test_wf_lenOvf_250 : (Instr.tLenOvf 0xFA#8).wellFormed = false := by decide
theorem test_wf_frame_251 : (Instr.frame 0x10#8 (List.replicate 251 0#8) 0#8).wellFormed = false := by decide +kernel
theorem test_wf_accepts_boundaries :
    (Instr.tLen 0x01#8).wellFormed && (Instr.tLen 0xFA#8).wellFormed && (Instr.tLenOvf 0xFB#8).wellFormed &&
      (Instr.frame 0x10#8 (List.replicate 250 0#8) 0#8).wellFormed && (Instr.send 0x10#8 3 false []).wellFormed = true := by
  decide +kernel

/-! ### Decoding: words written out from spec/opcode_table.json, one for each constructor

An OP word is the 4-bit selector; its operands follow in the model's layout (log entry 6). An RXDEC word is
the state (3 bits) and the byte. -/

/-- Registers under which every RXDEC word below decodes: a length of 2, nothing stored, CRC `57`. -/
def regs : DecodeRegs := { cursor := 0#8, msgLen := 2#8, crc := 0x57#8 }

/-- The decoder gives that instruction. -/
def decodesTo (fmt : Format) (r : DecodeRegs) (bytes : List Byte) (i : Instr) : Bool :=
  match decode fmt r bytes with
  | .ok j => j == i
  | .error _ => false

theorem test_decode_init : decodesTo .op regs [0b0000#8, 0b11#8] (.init true true) = true := by decide
theorem test_decode_rxb : decodesTo .op regs [0b0001#8, 0xA5#8] (.rxb 0xA5#8) = true := by decide
theorem test_decode_rxs :
    decodesTo .op regs [0b0010#8, 1#8, 0xA5#8, 1#8, 0x10#8, 0#8] (.rxs [0xA5#8, 0x10#8]) = true := by decide
theorem test_decode_reset : decodesTo .op regs [0b0011#8] .reset = true := by decide
theorem test_decode_send :
    decodesTo .op regs [0b0100#8, 0x10#8, 0x2C#8, 0x01#8, 1#8, 1#8, 0xDE#8, 0#8] (.send 0x10#8 300 true [0xDE#8]) = true := by
  decide
theorem test_decode_rdrx : decodesTo .op regs [0b0101#8] .rdrx = true := by decide
theorem test_decode_rdrej : decodesTo .op regs [0b0110#8] .rdrej = true := by decide
theorem test_decode_rdtx : decodesTo .op regs [0b0111#8] .rdtx = true := by decide
theorem test_decode_crc8 : decodesTo .op regs [0b1000#8, 1#8, 0x10#8, 0#8] (.crc8 [0x10#8]) = true := by decide
theorem test_decode_crcu : decodesTo .op regs [0b1001#8, 0x70#8, 0x03#8] (.crcu 0x70#8 0x03#8) = true := by decide
theorem test_decode_tSync : decodesTo .rxdec regs [0b10100101#8, 0b000#8] .tSync = true := by decide
theorem test_decode_tSkip : decodesTo .rxdec regs [0b10100100#8, 0b000#8] (.tSkip 0xA4#8) = true := by decide
theorem test_decode_tId : decodesTo .rxdec regs [0b10100101#8, 0b001#8] (.tId 0xA5#8) = true := by decide
theorem test_decode_tLen0 : decodesTo .rxdec regs [0b00000000#8, 0b010#8] .tLen0 = true := by decide
theorem test_decode_tLen : decodesTo .rxdec regs [0b11111010#8, 0b010#8] (.tLen 250#8) = true := by decide
theorem test_decode_tLenOvf : decodesTo .rxdec regs [0b11111011#8, 0b010#8] (.tLenOvf 251#8) = true := by decide
theorem test_decode_tData : decodesTo .rxdec regs [0b00000001#8, 0b011#8] (.tData 1#8) = true := by decide
theorem test_decode_tDataEnd :
    decodesTo .rxdec { regs with cursor := 1#8 } [0b00000001#8, 0b011#8] (.tDataEnd 1#8) = true := by decide
theorem test_decode_tAccept : decodesTo .rxdec regs [0b01010111#8, 0b100#8] (.tAccept 0x57#8) = true := by decide
theorem test_decode_tReject : decodesTo .rxdec regs [0b10100101#8, 0b100#8] (.tReject 0xA5#8) = true := by decide
theorem test_decode_frame :
    decodesTo .wire regs [0b10100101#8, 0x10#8, 0x01#8, 0xA5#8, 0xE0#8] (.frame 0x10#8 [0xA5#8] 0xE0#8) = true := by
  decide

/-- R98: the five states and no other number (U20). -/
theorem test_decode_no_such_state : (match decode .rxdec regs [0xA5#8, 5#8] with
    | .error e => e == .noSuchState
    | .ok _ => false) = true := by decide

/-- R93: a length byte of 251 is illegal. -/
theorem test_decode_frame_length_251 : (match decode .wire regs [0xA5#8, 0x10#8, 0xFB#8, 0x00#8] with
    | .error e => e == .illegalLength
    | .ok _ => false) = true := by decide

/-! ### One step of each instruction, against the vectors -/

/-- V11, V12. -/
theorem test_crcu : (crc8Update 0x70#8 0x03#8, crc8Update 0x00#8 0x80#8, crc8Update 0xFF#8 0xFF#8, crc8Update 0x00#8 0x10#8) =
    (0x5E#8, 0x89#8, 0x00#8, 0x70#8) := by decide
/-- V57: on a context that is not ready. -/
theorem test_crcu_not_ready : nextIs (exec (.crcu 0x70#8 0x03#8) powerOn)
    (fun t => t == { powerOn with results := [.byte 0x5E#8] }) = true := by decide
/-- R126: the check value of the nine digits. -/
theorem test_crc8_check_value :
    crc8 [0x31#8, 0x32#8, 0x33#8, 0x34#8, 0x35#8, 0x36#8, 0x37#8, 0x38#8, 0x39#8] = 0xF4#8 := by decide +kernel
/-- V13. -/
theorem test_crc8 : nextIs (exec (.crc8 [0x42#8, 0x01#8, 0xA5#8]) State.reset)
    (fun t => t.results == [.byte 0x37#8]) = true := by decide +kernel

/-- V1, V5. -/
theorem test_tSync : nextIs (exec .tSync (ctx .idle 0x10#8 3#8 3#8 0x40#8 []))
    (fun t => line t == (.gotSync, 0x10#8, 3#8, 0#8, 0x00#8)) = true := by decide
/-- V20. -/
theorem test_tSkip : nextIs (exec (.tSkip 0xA4#8) State.reset) (fun t => t == State.reset) = true := by decide
/-- V21: the sync value is an id. -/
theorem test_tId : nextIs (exec (.tId 0xA5#8) (ctx .gotSync 0#8 0#8 0#8 0#8 []))
    (fun t => line t == (.gotId, 0xA5#8, 0#8, 0#8, 0x72#8)) = true := by decide
/-- V23: the sync value is a length. -/
theorem test_tLen : nextIs (exec (.tLen 0xA5#8) (ctx .gotId 0x01#8 0#8 0#8 0x07#8 []))
    (fun t => line t == (.gotLen, 0x01#8, 0xA5#8, 0#8, 0x67#8)) = true := by decide
/-- V28: the largest length. -/
theorem test_tLen_250 : nextIs (exec (.tLen 0xFA#8) (ctx .gotId 0x01#8 0#8 0#8 0x07#8 []))
    (fun t => line t == (.gotLen, 0x01#8, 0xFA#8, 0#8, 0xFD#8)) = true := by decide
/-- V2. -/
theorem test_tLen0 : nextIs (exec .tLen0 (ctx .gotId 0x10#8 7#8 0#8 0x70#8 []))
    (fun t => line t == (.gotPayload, 0x10#8, 0#8, 0#8, 0x57#8)) = true := by decide
/-- V28. -/
theorem test_tLenOvf : nextIs (exec (.tLenOvf 0xFB#8) (ctx .gotId 0x01#8 0#8 0#8 0x07#8 []))
    (fun t => line t == (.idle, 0x01#8, 0xFB#8, 0#8, 0xFA#8) && counts t == (0, 1, 0) && t.events == []) = true := by
  decide
/-- V1: the second payload byte. -/
theorem test_tData : nextIs (exec (.tData 0x02#8) midPayload)
    (fun t => line t == (.gotLen, 0x10#8, 3#8, 2#8, 0xC1#8) && t.rxBuf == [(0, 0x01#8), (1, 0x02#8)]) = true := by
  decide
/-- V30: a second frame stores from index 0 again. -/
theorem test_tData_overwrites : nextIs (exec (.tData 0xDE#8) (ctx .gotLen 0x11#8 2#8 0#8 0x00#8 awaiting.rxBuf))
    (fun t => t.rxBuf == [(0, 0xDE#8), (1, 0x02#8), (2, 0x03#8)]) = true := by decide
/-- V1: the last payload byte. -/
theorem test_tDataEnd : nextIs (exec (.tDataEnd 0x03#8) lastPayload)
    (fun t => line t == (.gotPayload, 0x10#8, 3#8, 3#8, 0x40#8) && t.rxBuf == awaiting.rxBuf) = true := by decide
/-- R148: the last byte of the buffer. -/
theorem test_tDataEnd_249 : nextIs (exec (.tDataEnd 0x03#8) (ctx .gotLen 0x10#8 250#8 249#8 0x00#8 []))
    (fun t => t.cursor == 250#8 && t.state == .gotPayload && t.rxBuf == [(249, 0x03#8)]) = true := by decide
/-- V1. -/
theorem test_tAccept : nextIs (exec (.tAccept 0x40#8) awaiting)
    (fun t => t.state == .idle && counts t == (1, 0, 0) && t.events == [.msg 0x10#8 3#8 [0x01#8, 0x02#8, 0x03#8]]) = true := by
  decide
/-- V56: the counter wraps. -/
theorem test_tAccept_wraps : nextIs (exec (.tAccept 0x40#8) { awaiting with framesRx := 0xFFFFFFFF#32 })
    (fun t => counts t == (0, 0, 0)) = true := by decide
/-- V3. -/
theorem test_tReject : nextIs (exec (.tReject 0x00#8) awaiting)
    (fun t => line t == (.idle, 0x10#8, 3#8, 3#8, 0x40#8) && counts t == (0, 1, 0) && t.events == []) = true := by
  decide

/-- V24: a failing checksum byte is consumed, though it is the sync value. -/
theorem test_rxb_checksum_not_rescanned : nextIs (exec (.rxb 0xA5#8) awaiting)
    (fun t => t.state == .idle && counts t == (0, 1, 0)) = true := by decide
/-- V50. -/
theorem test_rxb_not_ready : refusedAs (exec (.rxb 0xA5#8) powerOn) .notReady = true := by decide
/-- V30: two frames back to back. -/
theorem test_rxs_two_frames : nextIs (exec (.rxs (v1 ++ [0xA5#8, 0x11#8, 0x02#8, 0xDE#8, 0xAD#8, 0x81#8])) State.reset)
    (fun t => line t == (.idle, 0x11#8, 2#8, 2#8, 0x81#8) && counts t == (2, 0, 0) &&
      t.events == [.msg 0x10#8 3#8 [0x01#8, 0x02#8, 0x03#8], .msg 0x11#8 2#8 [0xDE#8, 0xAD#8]]) = true := by decide +kernel
/-- V34: a corrupted length can deliver another message. -/
theorem test_rxs_corrupted_length : nextIs (exec (.rxs [0xA5#8, 0x10#8, 0x00#8, 0x57#8, 0x15#8]) State.reset)
    (fun t => counts t == (1, 0, 0) && t.events == [.msg 0x10#8 0#8 []]) = true := by decide +kernel
/-- V22: sync values inside a frame. -/
theorem test_frame : nextIs (exec (.frame 0x42#8 [0xA5#8] 0x37#8) State.reset)
    (fun t => line t == (.idle, 0x42#8, 1#8, 1#8, 0x37#8) && t.events == [.msg 0x42#8 1#8 [0xA5#8]]) = true := by
  decide +kernel
/-- V8: the neighbour of V3. -/
theorem test_frame_corrupted : nextIs (exec (.frame 0x10#8 [0x01#8, 0x02#8, 0x83#8] 0x40#8) State.reset)
    (fun t => line t == (.idle, 0x10#8, 3#8, 3#8, 0xC9#8) && counts t == (0, 1, 0)) = true := by decide +kernel
/-- V4's header with its 251 bytes behind it: rejected at the length byte, the rest discarded in `Idle` (R93,
R99). -/
theorem test_frame_251 : nextIs (exec (.frame 0x10#8 (List.replicate 251 0#8) 0#8) State.reset)
    (fun t => line t == (.idle, 0x10#8, 251#8, 0#8, 0xB8#8) && counts t == (0, 1, 0) && t.events == []) =
      true := by decide +kernel

/-- V46: SEND during a parse. -/
theorem test_send : nextIs (exec (.send 0x20#8 2 true [0xA5#8, 0xA5#8]) midPayload)
    (fun t => line t == line midPayload && counts t == (0, 0, 1) && t.results == [.ok true] &&
      t.events == [.sink [0xA5#8, 0x20#8, 0x02#8, 0xA5#8, 0xA5#8, 0x33#8]]) = true := by decide +kernel
/-- V42, V43. -/
theorem test_send_rejected :
    nextIs (exec (.send 0x10#8 3 false []) State.reset) (fun t => t == { State.reset with results := [.ok false] }) &&
      nextIs (exec (.send 0x10#8 251 true []) State.reset)
        (fun t => t == { State.reset with results := [.ok false] }) = true := by decide
/-- V50. -/
theorem test_init_rejected : nextIs (exec (.init true false) powerOn)
    (fun t => t == { powerOn with results := [.ok false] }) = true := by decide
/-- V52: re-initialisation. -/
theorem test_init : nextIs (exec (.init true true) { awaiting with framesRx := 1, framesTx := 1 })
    (fun t => line t == (.idle, 0#8, 0#8, 0#8, 0#8) && counts t == (0, 0, 0) && t.rxBuf == awaiting.rxBuf) = true := by
  decide
/-- V6 (b). -/
theorem test_reset : nextIs (exec .reset { lastPayload with framesRx := 1 })
    (fun t => line t == (.idle, 0#8, 0#8, 0#8, 0#8) && counts t == (1, 0, 0) && t.rxBuf == lastPayload.rxBuf) = true := by
  decide
/-- P1: `RDRX -> 2   RDREJ -> 0   RDTX -> 2`. -/
theorem test_counter_reads :
    (let s : State := { State.reset with framesRx := 2, framesTx := 3, framesRejected := 1 }
     nextIs (exec .rdrx s) (fun t => t.results == [.count 2]) && nextIs (exec .rdrej s) (fun t => t.results == [.count 1]) &&
       nextIs (exec .rdtx s) (fun t => t.results == [.count 3])) = true := by decide

/-! ### The step -/

/-- P3: a reply from inside the message event; RXB is refused there (R272). -/
theorem test_step_inside_event :
    nextIs (step { State.reset with input := [{ origin := .inMessageEvent, payload := .op [0x05#8] }] })
        (fun t => t.results == [.count 0] && t.input == []) &&
      refusedAs (step { State.reset with input := [{ origin := .inMessageEvent, payload := .op [0x01#8, 0xA5#8] }] })
        (.insideEvent .inMessageEvent) = true := by decide
/-- A byte on the `rx` channel is decoded under the parser's registers. -/
theorem test_step_rx :
    nextIs (step { awaiting with input := [{ origin := .owner, payload := .rx 0x40#8 }] })
      (fun t => counts t == (1, 0, 0) && t.state == .idle) = true := by decide
/-- R99: bytes on the wire that are no frame: an illegal length, then a sync byte that opens the next frame. -/
theorem test_step_wire_no_frame :
    nextIs (step (State.reset.present (.wire [0xA5#8, 0x10#8, 0xFB#8, 0xA5#8])))
      (fun t => counts t == (0, 1, 0) && t.state == .gotSync && t.input == []) = true := by decide
/-- R100: selector 10. -/
theorem test_step_reserved : refusedAs (step (State.reset.present (.op [0x0A#8]))) (.undecodable .reservedSelector) = true := by
  decide
/-- The first step after reset runs the table's word for RESET, and the one for T_LENOVF with byte `FF`. -/
theorem test_withFetchWord :
    nextIs (step (State.reset.withFetchWord 8 0x3)) (fun t => t == State.reset) &&
      nextIs (step (State.reset.withFetchWord 16 0x2FF)) (fun t => counts t == (0, 1, 0)) = true := by decide

/-- V2 on the wire, and the table's word for FRAME with its operands zero, whose CRC is 0. -/
theorem test_step_wire_frame :
    nextIs (step (State.reset.present (.wire [0xA5#8, 0x10#8, 0x00#8, 0x57#8])))
        (fun t => counts t == (1, 0, 0) && t.events == [.msg 0x10#8 0#8 []]) &&
      nextIs (step (State.reset.withFetchWord 8 0xA5)) (fun t => t.events == [.msg 0#8 0#8 []]) = true := by
  decide +kernel
/-- A length byte of 3 with every bit above it zero. -/
theorem test_decode_frame_word_zeros :
    decodeTableWord 24 0x0310A5 = some (.frame 0x10#8 [0#8, 0#8, 0#8] 0#8) := by decide

/-- The buffer after reset is in canonical form. -/
theorem test_reset_buffer_wf : State.reset.rxBuf.wf = true := by decide

/-! ### Witnesses: for each statement with hypotheses, what meets them together -/

theorem inv_reset : State.reset.Inv := ⟨rfl, fun _ => ⟨rfl, rfl, trivial⟩⟩

theorem inv_midPayload : midPayload.Inv := by
  refine ⟨by decide, fun _ => ⟨rfl, rfl, by decide, by decide, by decide, by decide +kernel, ?_⟩⟩
  intro a h
  obtain rfl : a = 0 := Nat.lt_one_iff.mp h
  rfl

theorem inv_awaiting : awaiting.Inv := by
  refine ⟨by decide, fun _ => ⟨rfl, rfl, by decide, rfl, by decide +kernel, ?_⟩⟩
  intro a h
  have h : a < 3 := h
  obtain rfl | rfl | rfl : a = 0 ∨ a = 1 ∨ a = 2 := by omega
  all_goals rfl

theorem test_witness_OneChangedByteChangesTheCrc : (0x01#8 : Byte) ≠ 0x02#8 := by decide
theorem test_witness_TwoBits127ApartAreNotSeen :
    (List.replicate 14 (0#8 : Byte)).length = 14 ∧ (List.replicate 15 (0#8 : Byte)).length = 15 ∧ 0 < 7 ∧ 6 < 7 := by decide
theorem test_witness_DecodingAnEncodingGivesItBack :
    (Instr.tReject 0xA5#8).wellFormed = true ∧ (Instr.tReject 0xA5#8).selectedBy regs = true ∧
      (Instr.tDataEnd 1#8).selectedBy { regs with cursor := 1#8 } = true ∧
      (Instr.frame 0xFF#8 (List.replicate 250 0xA5#8) 0#8).wellFormed = true := by decide +kernel
theorem test_witness_DecoderAcceptsOnlyEncodings :
    decode .rxdec regs [0x57#8, 4#8, 0#8, 0#8] = .ok (.tAccept 0x57#8) := by rfl
theorem test_witness_ReservedSelectorsAreRefused :
    10 ≤ (0x0A#8 : Byte).toNat ∧ (0x0F#8 : Byte).toNat ≤ 15 := by decide
theorem test_witness_StepRunsTheDecodedTransfer :
    decode .rxdec awaiting.decodeRegs [0x40#8, awaiting.state.code] = .ok (.tAccept 0x40#8) ∧
      Origin.owner.permits (.tAccept 0x40#8) = true := ⟨rfl, rfl⟩
theorem test_witness_NothingPresentedNothingChanges : awaiting.input = [] := rfl
theorem test_witness_OperationsFromInsideAnEvent :
    (Instr.send 0x10#8 0 false []).wellFormed = true ∧ (Instr.send 0x10#8 0 false []).format = .op ∧
      Instr.reset.wellFormed = true ∧ Instr.reset.format = .op := by decide
theorem test_witness_EveryByteDrivesExactlyOneTransition : midPayload.ready = true := rfl
theorem test_witness_idle :     -- SyncByteStartsAFrame, OtherByteInIdleIsDiscarded, the sequences from Idle
    State.reset.ready = true ∧ State.reset.state = .idle ∧ (0xA4#8 : Byte) ≠ 0xA5#8 := by decide
theorem test_witness_IdByteIsStoredAndFolded :
    (ctx .gotSync 0#8 0#8 0#8 0#8 []).ready = true ∧ (ctx .gotSync 0#8 0#8 0#8 0#8 []).state = .gotSync := by decide
theorem test_witness_lengths :     -- LegalLengthOpensThePayload, ZeroLengthSkipsThePayload, OversizedLengthIsRejectedAtOnce
    (ctx .gotId 0x10#8 0#8 0#8 0x70#8 []).ready = true ∧ (ctx .gotId 0x10#8 0#8 0#8 0x70#8 []).state = .gotId ∧
      1 ≤ (0x01#8 : Byte).toNat ∧ (0xFA#8 : Byte).toNat ≤ 250 ∧ 251 ≤ (0xFB#8 : Byte).toNat := by decide
theorem test_witness_LegalLength_invariant : (ctx .gotId 0x10#8 0#8 0#8 0x70#8 []).Inv :=
  ⟨rfl, fun _ => ⟨rfl, rfl, rfl, by decide⟩⟩
theorem test_witness_PayloadByteIsStored :
    midPayload.ready = true ∧ midPayload.state = .gotLen ∧ midPayload.msgLen.toNat ≤ 250 ∧
      midPayload.cursor.toNat + 1 < midPayload.msgLen.toNat := by decide
theorem test_witness_PayloadByteIsStored_248 :
    (ctx .gotLen 0#8 250#8 248#8 0#8 []).msgLen.toNat ≤ 250 ∧
      (ctx .gotLen 0#8 250#8 248#8 0#8 []).cursor.toNat + 1 < (ctx .gotLen 0#8 250#8 248#8 0#8 []).msgLen.toNat := by decide
theorem test_witness_LastPayloadByteCompletesThePayload :
    (ctx .gotLen 0#8 250#8 249#8 0#8 []).ready = true ∧ (ctx .gotLen 0#8 250#8 249#8 0#8 []).state = .gotLen ∧
      (ctx .gotLen 0#8 250#8 249#8 0#8 []).msgLen.toNat ≤ 250 ∧
      (ctx .gotLen 0#8 250#8 249#8 0#8 []).cursor.toNat + 1 = (ctx .gotLen 0#8 250#8 249#8 0#8 []).msgLen.toNat := by decide
theorem test_witness_checksum :     -- MatchingChecksumAcceptsTheFrame, WrongChecksumRejectsTheFrame
    awaiting.ready = true ∧ awaiting.state = .gotPayload ∧ awaiting.msgLen.toNat ≤ 250 ∧ (0x00#8 : Byte) ≠ awaiting.crc := by decide
theorem test_witness_ReceivedCounterWraps :
    (let s : State := { awaiting with framesRx := 0xFFFFFFFF#32 }
     s.ready = true ∧ s.state = .gotPayload ∧ s.msgLen.toNat ≤ 250 ∧ s.framesRx.toNat = 2 ^ Config.cntW - 1) :=
  ⟨rfl, rfl, by decide, by decide⟩
theorem test_witness_ParserNeverReadsItsBuffer :
    exec (.rxb 0xA5#8) State.reset = .next { State.reset with state := .gotSync } := rfl
theorem test_witness_payload_lengths :     -- ValidFrameIsDelivered, SentFramesAreReceived: the ends of the range
    ([] : List Byte).length ≤ 250 ∧ (List.replicate 250 (0xA5#8 : Byte)).length ≤ 250 := by decide +kernel
theorem test_witness_NoiseWithoutSyncIsInvisible :
    ∀ b ∈ ([0x00#8, 0xFF#8, 0x10#8, 0x5A#8] : List Byte), b ≠ 0xA5#8 := by decide
theorem test_witness_OneCorruptedByteIsRejected :
    ([0x01#8, 0x02#8, 0x03#8] : List Byte) = [0x01#8, 0x02#8] ++ [0x03#8] ++ [] ∧ (0x83#8 : Byte) ≠ 0x03#8 ∧
      (0x83#8 : Byte) ≠ 0x10#8 ∧ (0x83#8 : Byte) ≠ crc8 [0x10#8, 0x03#8, 0x01#8, 0x02#8, 0x03#8] ∧ (0x83#8 : Byte) ≠ 0xA5#8 ∧
      ∀ b ∈ ([0x10#8, 0x03#8, 0x01#8, 0x02#8, 0x03#8, 0x40#8] : List Byte), b ≠ 0xA5#8 := by decide +kernel
theorem test_witness_OversizedHeaderResynchronises :
    251 ≤ (0xFB#8 : Byte).toNat ∧ 251 ≤ (0xFF#8 : Byte).toNat ∧ ∀ b ∈ ([0x11#8, 0x22#8] : List Byte), b ≠ 0xA5#8 := by decide
theorem test_witness_SyncValueInsideAFrameIsData :
    midPayload.state ≠ .idle ∧
      nextIs (exec (.rxb 0xA5#8) midPayload) (fun _ => true) = true := by decide
theorem test_witness_DeliveredMessagesWereChecked :
    awaiting.Inv ∧ nextIs (exec (.rxb 0x40#8) awaiting) (fun t => t.events != awaiting.events) = true :=
  ⟨inv_awaiting, by decide⟩
theorem test_witness_DeliveredMessagesAreFramesOfTheStream :
    nextIs (exec (.rxs ([0x00#8] ++ v1)) State.reset) (fun t => t.events.length == 1) = true := by decide +kernel
theorem test_witness_SendEmitsTheFrame :     -- the ends of each branch: 0 and null, 250, 251, null with a length
    (0 : TxLen).toNat ≤ ([] : List Byte).length ∧ (250 : TxLen).toNat ≤ (List.replicate 250 (0#8 : Byte)).length ∧
      250 < (251 : TxLen).toNat ∧ ¬250 < (250 : TxLen).toNat ∧ (1 : TxLen) ≠ 0 := by decide +kernel
theorem test_witness_SendFailsOnItsTwoConditionsOnly :
    State.reset.ready = true ∧ (251 : TxLen).toNat > 250 ∧ ¬((3 : TxLen).toNat > 250 ∨ (true = false ∧ (3 : TxLen) ≠ 0)) ∧
      (3 : TxLen).toNat ≤ ([1#8, 2#8, 3#8] : List Byte).length := by decide
theorem test_witness_ShortPayloadIsRefused :
    State.reset.ready = true ∧ (250 : TxLen).toNat ≤ 250 ∧ ([1#8, 2#8] : List Byte).length < (250 : TxLen).toNat := by decide
theorem test_witness_SendAndReceiveCommute :
    nextIs (exec (.send 0x10#8 0 false []) awaiting) (fun _ => true) &&
      nextIs (exec (.rxb 0x40#8) awaiting) (fun _ => true) = true := by decide
theorem test_witness_InitWithoutACollaboratorFails : (false = false ∨ true = false) ∧ (true = false ∨ false = false) := by decide
theorem test_witness_ResetClearsTheParserOnly : midPayload.ready = true := rfl
theorem test_witness_ResetOnAnIdleContextCannotBeNoticed :
    (let s : State := ctx .idle 0x10#8 3#8 3#8 0x40#8 []
     s.ready = true ∧ s.state = .idle ∧ exec .reset s = .next s.clearParser) := ⟨rfl, rfl, rfl⟩
theorem test_witness_CounterReadsReturnTheCounters : awaiting.ready = true := rfl
theorem test_witness_UnreadyContextRunsInitAndCrcOnly :
    powerOn.ready = false ∧ (Instr.init true true).wellFormed = true ∧ (Instr.rxb 0xA5#8).wellFormed = true := by decide
theorem test_witness_UnselectedTransitionsAreRefused :
    midPayload.ready = true ∧ midPayload.state ≠ .idle ∧ midPayload.state ≠ .gotSync ∧ midPayload.state ≠ .gotId ∧
      midPayload.state ≠ .gotPayload ∧ awaiting.ready = true ∧ awaiting.state ≠ .gotLen ∧
      (0x00#8 : Byte).toNat = 0 ∧ 250 < (0xFB#8 : Byte).toNat ∧ (0xFA#8 : Byte).toNat ≤ 250 ∧
      lastPayload.cursor + 1 = lastPayload.msgLen ∧ midPayload.cursor + 1 ≠ midPayload.msgLen ∧
      (0x41#8 : Byte) ≠ awaiting.crc ∧ (0x40#8 : Byte) = awaiting.crc := by decide
theorem test_witness_InvariantHoldsAtReset : powerOn.ready = false ∧ powerOn.rxBuf.wf = true := by decide
theorem test_witness_EveryStepKeepsTheInvariant :
    (let s : State := { awaiting with input := [{ origin := .owner, payload := .rx 0x40#8 }] }
     s.Inv ∧ nextIs (step s) (fun t => t.state == .idle) = true) := ⟨inv_awaiting, by decide⟩
theorem test_witness_NoStepLeavesTheBuffer : midPayload.Inv := inv_midPayload
theorem test_witness_EveryOperationCompletes :
    midPayload.Inv ∧ midPayload.ready = true ∧ (Instr.send 0x10#8 1 true [0xA5#8]).format ≠ .rxdec ∧
      (Instr.send 0x10#8 1 true [0xA5#8]).wellFormed = true ∧ (1 : TxLen).toNat ≤ ([0xA5#8] : List Byte).length :=
  ⟨inv_midPayload, rfl, by decide, rfl, by decide⟩
theorem test_witness_CountersCountTheEvents :
    nextIs (exec (.rxs v1) State.reset) (fun t => messagesIn t.events == 1) = true ∧ Instr.rxs v1 ≠ .init true true := by
  decide +kernel
theorem test_witness_OnlyRejectionsCountAsRejected :
    nextIs (exec (.rxb 0xFB#8) (ctx .gotId 0#8 0#8 0#8 0#8 [])) (fun t => t.framesRejected == 1) &&
      nextIs (exec (.rxb 0x00#8) awaiting) (fun t => t.framesRejected == 1) = true := by decide
theorem test_witness_OnlyTheParserStores :
    nextIs (exec (.tAccept 0x40#8) awaiting) (fun t => t.rxBuf == awaiting.rxBuf) = true := by decide
theorem test_witness_OneByteIsStoredAtTheCursor :
    nextIs (exec (.rxb 0x02#8) midPayload) (fun t => t.rxByte 1 == 0x02#8) = true ∧ midPayload.state = .gotLen := by decide
theorem test_witness_SequencesStoreAtTheirCursorsOnly :
    nextIs (exec (.frame 0x42#8 [0xA5#8] 0x37#8) State.reset) (fun t => t.rxBuf == [(0, 0xA5#8)]) = true ∧
      [0xA5#8, 0x42#8, BitVec.ofNat 8 1] ++ [0xA5#8] ++ [0x37#8] = ([0xA5#8, 0x42#8, 1#8, 0xA5#8, 0x37#8] : List Byte) := by
  decide +kernel
/-- The stored byte of that frame: it arrives in `GotLen` at cursor 0, and the one byte after it does not. -/
theorem test_witness_SequencesStore_byte :
    nextIs (exec (.rxs [0xA5#8, 0x42#8, 1#8]) State.reset) (fun u => u.state == .gotLen && u.cursor == 0#8) &&
      nextIs (exec (.rxs [0xA5#8, 0x42#8, 1#8, 0xA5#8]) State.reset) (fun v => v.state != .gotLen) = true := by decide
theorem test_witness_OperationsTouchTheirOwnFieldsOnly :
    nextIs (exec (.send 0x10#8 0 true []) midPayload) (fun t => t.framesTx == 1 && t.crc == midPayload.crc) = true := by
  decide
theorem test_witness_StaleBufferBytesNeverLeave :
    midPayload.Inv ∧ ∀ a < midPayload.held, RxBuf.read [(0, 0x01#8), (7, 0xEE#8)] a = midPayload.rxByte a := by
  refine ⟨inv_midPayload, fun a h => ?_⟩
  obtain rfl : a = 0 := Nat.lt_one_iff.mp h
  rfl
theorem test_witness_SequencesRunByteByByte : awaiting.ready = true := rfl
theorem test_witness_EveryByteSequenceOnTheWireIsTaken :
    midPayload.Inv ∧ midPayload.ready = true ∧ powerOn.ready = false := ⟨inv_midPayload, rfl, rfl⟩

end Sys2Proof.Tests
end

section
/-! PROOFS. The frame parser (41_frame_parser.md): what one received byte does in each state, by RXB and by the
transition of that name, and noise before a frame. -/

namespace Sys2Proof.Machine

/-! ### Facts the statements share -/

/-- On a ready context RXS is the parser's run over its bytes. -/
theorem exec_rxs_of_ready {s : State} (h : s.ready = true) (bytes : List Byte) :
    exec (.rxs bytes) s = parserBytes bytes s := whenReady_of_ready h _

/-- The condition that tells T_DATAEND from T_DATA, as one on numbers: inside the buffer the cursor does not
wrap. -/
theorem cursor_succ_eq_msgLen_iff {s : State} (h : s.cursor.toNat < 250) :
    s.cursor + 1#8 = s.msgLen ↔ s.cursor.toNat + 1 = s.msgLen.toNat := by
  rw [← BitVec.toNat_inj, cursor_succ_toNat h]

/-- 10_state.md R28: no payload byte has been taken before the length. -/
theorem State.Inv.cursor_eq_zero_of_gotId {s : State} (h : s.Inv) (hr : s.ready = true) (hs : s.state = .gotId) :
    s.cursor = 0#8 := by
  obtain ⟨-, hready⟩ := h
  obtain ⟨-, -, hp⟩ := hready hr
  simp only [State.ParserInv, hs] at hp
  exact hp.1

/-- In `Idle` every byte but the sync marker is skipped, so a run over such bytes is no run at all. -/
theorem parserBytes_noise {s : State} (hs : s.state = .idle) {x : List Byte} (hx : ∀ b ∈ x, b ≠ 0xA5#8) :
    parserBytes x s = .next s := by
  induction x with
  | nil => rfl
  | cons b x ih =>
    obtain ⟨hb, hrest⟩ := List.forall_mem_cons.mp hx
    rw [parserBytes_cons, parserByte_skip hs hb, andThen_next, ih hrest]

/-! ### Payload bytes -/

/-- Settles O22: below the last index the cursor plus one is not `msg_len`, so both forms store the byte and stay
in `GotLen`. -/
theorem payloadByteIsStored : Obligations.PayloadByteIsStored := by
  intro s b hr hs hlen hlt t
  have hc : s.cursor.toNat < 250 := by omega
  have hn : s.cursor + 1#8 ≠ s.msgLen := (cursor_succ_eq_msgLen_iff hc).not.mpr (by omega)
  refine ⟨?rxb, ?tData, by omega, ?stored, ?others⟩
  case rxb => exact exec_rxb_eq_next.mpr ⟨hr, parserByte_data hs hc hn⟩
  case tData => exact exec_tData_eq_next.mpr ⟨hr, ⟨hs, hn⟩, hc, rfl⟩
  case stored => exact State.storeByte_rxByte_self s b
  case others => exact fun _ ha => State.storeByte_rxByte_other s b ha

/-- Settles O23: at the last index the cursor plus one is `msg_len`, so both forms store the byte and go to
`GotPayload`. -/
theorem lastPayloadByteCompletesThePayload : Obligations.LastPayloadByteCompletesThePayload := by
  intro s b hr hs hlen hlast t
  have hc : s.cursor.toNat < 250 := by omega
  have he : s.cursor + 1#8 = s.msgLen := (cursor_succ_eq_msgLen_iff hc).mpr hlast
  refine ⟨?rxb, ?tDataEnd, he, by omega, ?stored, ?others⟩
  case rxb => exact exec_rxb_eq_next.mpr ⟨hr, parserByte_dataEnd hs hc he⟩
  case tDataEnd => exact exec_tDataEnd_eq_next.mpr ⟨hr, ⟨hs, he⟩, hc, rfl⟩
  case stored => exact State.storeByte_rxByte_self s b
  case others => exact fun _ ha => State.storeByte_rxByte_other s b ha

/-! ### Noise -/

/-- Settles O30: the noise runs to the state it started in, and what follows is cut off behind it. -/
theorem noiseWithoutSyncIsInvisible : Obligations.NoiseWithoutSyncIsInvisible := by
  intro s x y hr hs hx
  have hnoise := parserBytes_noise hs hx
  constructor
  · rw [exec_rxs_of_ready hr, hnoise]
  · calc exec (.rxs (x ++ y)) s
        = andThen (parserBytes x s) (parserBytes y) := by rw [exec_rxs_of_ready hr, parserBytes_append]
      _ = parserBytes y s := by rw [hnoise, andThen_next]
      _ = exec (.rxs y) s := (exec_rxs_of_ready hr y).symm

/-! ### The bytes around the payload -/

/-- Settles O17: `Idle` skips every byte but the sync marker. -/
theorem otherByteInIdleIsDiscarded : Obligations.OtherByteInIdleIsDiscarded := by
  intro s b hr hs hb
  exact ⟨exec_rxb_eq_next.mpr ⟨hr, parserByte_skip hs hb⟩, exec_tSkip_eq_next.mpr ⟨hr, ⟨hs, hb⟩, rfl⟩⟩

/-- Settles O18: in `GotSync` every byte is the id. -/
theorem idByteIsStoredAndFolded : Obligations.IdByteIsStoredAndFolded := by
  intro s b hr hs t
  exact ⟨exec_rxb_eq_next.mpr ⟨hr, parserByte_id hs⟩, exec_tId_eq_next.mpr ⟨hr, hs, rfl⟩⟩

/-- Settles O19: a length of at least 1 is not 0, and the cursor, which T_LEN leaves alone, is 0 in `GotId` by the
invariant. -/
theorem legalLengthOpensThePayload : Obligations.LegalLengthOpensThePayload := by
  intro s b hr hs hpos hmax t
  have h0 : b ≠ 0#8 := by
    rintro rfl
    exact absurd hpos (by decide)
  refine ⟨?rxb, ?tLen, ?cursor⟩
  case rxb => exact exec_rxb_eq_next.mpr ⟨hr, parserByte_len hs h0 hmax⟩
  case tLen => exact exec_tLen_eq_next.mpr ⟨hr, ⟨hs, hpos, hmax⟩, rfl⟩
  case cursor => exact fun hinv => hinv.cursor_eq_zero_of_gotId hr hs

/-- Settles O20: in `GotId` the byte 0 goes to `GotPayload` at once. -/
theorem zeroLengthSkipsThePayload : Obligations.ZeroLengthSkipsThePayload := by
  intro s hr hs t
  exact ⟨exec_rxb_eq_next.mpr ⟨hr, parserByte_len0 hs⟩, exec_tLen0_eq_next.mpr ⟨hr, hs, rfl⟩⟩

/-- Settles O25: in `GotPayload` a byte that is not the running CRC counts a rejection and nothing else. -/
theorem wrongChecksumRejectsTheFrame : Obligations.WrongChecksumRejectsTheFrame := by
  intro s b hr hs hb t
  exact ⟨exec_rxb_eq_next.mpr ⟨hr, parserByte_reject hs hb⟩, exec_tReject_eq_next.mpr ⟨hr, ⟨hs, hb⟩, rfl⟩⟩

end Sys2Proof.Machine
end

section
/-! PROOFS. The frame encoder (42_frame_encoder.md): what SEND answers on a ready context, in its two cases, and the
round trip of a sent frame through the parser. -/

namespace Sys2Proof.Machine

/-! ### The two answers of SEND -/

/-- R181: when neither failure condition holds, a caller that keeps R271 has supplied the `n` bytes; with a null
payload `n` is 0. -/
theorem le_txReadable_of_sendOk {n : TxLen} {present : Bool} {pay : List Byte} (hok : sendOk n present = true)
    (hpay : present = true → n.toNat ≤ pay.length) : n.toNat ≤ txReadable present pay := by
  obtain ⟨-, hnull⟩ := sendOk_eq_true.mp hok
  cases present with
  | false => simp [hnull rfl]
  | true => exact hpay rfl

/-- The two failure conditions, negated as R181 writes them. -/
theorem sendOk_of_not_failing {n : TxLen} {present : Bool} (h : ¬(250 < n.toNat ∨ (present = false ∧ n ≠ 0))) :
    sendOk n present = true := by
  rwa [← Bool.not_eq_false, sendOk_eq_false]

/-- SEND with arguments that pass: one burst, the frame's bytes, then the count and `ok = 1`. -/
theorem exec_send_of_sendOk {s : State} {n : TxLen} {present : Bool} {pay : List Byte} (id : Byte)
    (hr : s.ready = true) (hok : sendOk n present = true) (hpay : present = true → n.toNat ≤ pay.length) :
    exec (.send id n present pay) s = .next { s with
      events := s.events ++ [.sink ([0xA5#8, id, BitVec.ofNat 8 n.toNat] ++ pay.take n.toNat ++
        [crc8 ([id, BitVec.ofNat 8 n.toNat] ++ pay.take n.toNat)])]
      framesTx := s.framesTx + 1
      results := s.results ++ [.ok true] } := by
  rw [← sendBurst_eq]
  exact exec_send_eq_next.mpr ⟨hr, .inl ⟨hok, le_txReadable_of_sendOk hok hpay, rfl⟩⟩

/-- SEND with arguments that fail: `ok = 0`, whatever the payload. -/
theorem exec_send_of_not_sendOk {s : State} {n : TxLen} {present : Bool} (id : Byte) (pay : List Byte)
    (hr : s.ready = true) (hfail : sendOk n present = false) :
    exec (.send id n present pay) s = .next { s with results := s.results ++ [.ok false] } :=
  exec_send_eq_next.mpr ⟨hr, .inr ⟨hfail, rfl⟩⟩

/-! ### A valid frame through the parser -/

theorem State.SameBesideParser.events {s t : State} (h : s.SameBesideParser t) : t.events = s.events := by
  rw [h]

theorem State.SameBesideParser.framesRx {s t : State} (h : s.SameBesideParser t) : t.framesRx = s.framesRx := by
  rw [h]

/-- 41_frame_parser.md R155: from `Idle` the bytes of a valid frame end in T_ACCEPT, since the running CRC is then the
checksum byte, and the view of the buffer is the payload. -/
theorem parserBytes_validFrame {s : State} (m : Byte) {p : List Byte} (hst : s.state = .idle) (hp : p.length ≤ 250) :
    ∃ u, s.SameBesideParser u ∧
      parserBytes ([0xA5#8, m, BitVec.ofNat 8 p.length] ++ p ++ [crc8 ([m, BitVec.ofNat 8 p.length] ++ p)]) s =
        .next ((u.countReceived.goto .idle).emit (.msg m (BitVec.ofNat 8 p.length) p)) := by
  obtain ⟨u, hrun, hsame, hgot, hid, hlen, hcrc, hview, -⟩ := parserBytes_frameBody m hst hp
  have hlenNat : u.msgLen.toNat = p.length := by rw [hlen, BitVec.toNat_ofNat]; omega
  have hmsg : u.messageEvent = .msg m (BitVec.ofNat 8 p.length) p := by
    rw [State.messageEvent, hlenNat, hid, hlen, hview]
  refine ⟨u, hsame, ?_⟩
  rw [parserBytes_append, hrun, andThen_next, ← hcrc, parserBytes_cons,
    parserByte_accept hgot (by omega), andThen_next, parserBytes_nil, hmsg]

/-! ### The statements -/

/-- Settles O39: a payload of at most 250 bytes passes the argument checks and its length fits SEND's operand, so the
burst is its frame, and a parser in `Idle` accepts a valid frame. -/
theorem sentFramesAreReceived : Obligations.SentFramesAreReceived := by
  intro id p s r hs hp hr hidle len frame
  have hn : (BitVec.ofNat 16 p.length).toNat = p.length := by rw [BitVec.toNat_ofNat]; omega
  have hok : sendOk (BitVec.ofNat 16 p.length) true = true := sendOk_eq_true.mpr ⟨by omega, nofun⟩
  have hsend := exec_send_of_sendOk (pay := p) id hs hok fun _ => hn.le
  rw [hn, List.take_length] at hsend
  obtain ⟨u, hsame, hrun⟩ := parserBytes_validFrame id hidle hp
  refine ⟨_, _, hsend, rfl, exec_rxs_eq_next.mpr ⟨hr, hrun⟩, ?_, ?_⟩
  · simp [hsame.events, len]
  · simp [hsame.framesRx, inc]

/-- Settles O36: the three branches are a context that is not ready, arguments that fail and arguments that pass. -/
theorem sendEmitsTheFrame : Obligations.SendEmitsTheFrame := by
  intro id n present pay s hpay p len
  split_ifs with hr hfail
  · exact whenReady_of_not_ready hr _
  · exact exec_send_of_not_sendOk id pay (by simpa using hr) (sendOk_eq_false.mpr hfail)
  · have hok := sendOk_of_not_failing hfail
    obtain ⟨hle, -⟩ := sendOk_eq_true.mp hok
    exact exec_send_of_sendOk id (by simpa using hr) hok fun h => hpay h hle

/-- Settles O37: the two conditions are those under which `sendOk` is false. -/
theorem sendFailsOnItsTwoConditionsOnly : Obligations.SendFailsOnItsTwoConditionsOnly := by
  intro id n present pay s hr
  constructor
  · intro hfail
    exact exec_send_of_not_sendOk id pay hr (sendOk_eq_false.mpr hfail)
  · intro hpass hlen
    exact ⟨_, exec_send_of_sendOk id hr (sendOk_of_not_failing hpass) fun _ => hlen, rfl, rfl⟩

end Sys2Proof.Machine
end

section
/-! PROOFS. The CRC-8 engine (40_crc_engine.md): the update is linear and loses nothing in either operand, and what
follows from that for changes of a sequence. -/

namespace Sys2Proof.Machine

/-! ### Linearity -/

/-- The update is eight division steps. -/
theorem crc8Update_eq_iterate (r b : Byte) : crc8Update r b = crcStep^[8] (r ^^^ b) := rfl

theorem crcStep_iterate_xor (n : Nat) (a b : Byte) : crcStep^[n] (a ^^^ b) = crcStep^[n] a ^^^ crcStep^[n] b := by
  induction n generalizing a b with
  | zero => rfl
  | succ n ih => simp only [Function.iterate_succ_apply, crcStep_xor, ih]

/-- The update of two differences is the difference of the updates. -/
theorem crc8Update_xor (r d b e : Byte) : crc8Update (r ^^^ d) (b ^^^ e) = crc8Update r b ^^^ crc8Update d e := by
  have h : (r ^^^ d) ^^^ (b ^^^ e) = (r ^^^ b) ^^^ (d ^^^ e) := by ac_rfl
  rw [crc8Update_eq_iterate, h, crcStep_iterate_xor]
  rfl

theorem crc8Update_xor_left (r d b : Byte) : crc8Update (r ^^^ d) b = crc8Update r b ^^^ crc8Update d 0#8 := by
  simpa using crc8Update_xor r d b 0#8

theorem crc8Update_xor_right (r b e : Byte) : crc8Update r (b ^^^ e) = crc8Update r b ^^^ crc8Update 0#8 e := by
  simpa using crc8Update_xor r 0#8 b e

/-- A difference in the running value passes through a sequence as if the sequence were zeros. -/
theorem crcFold_xor (r d : Byte) (data : List Byte) :
    crcFold (r ^^^ d) data = crcFold r data ^^^ (crc8Update · 0#8)^[data.length] d := by
  induction data generalizing r d with
  | nil => rfl
  | cons b data ih => rw [crcFold_cons, crc8Update_xor_left, ih]; rfl

/-! ### Injectivity -/

/-- Division steps that agree started from the same value: their difference is the step of the difference. -/
theorem crcStep_injective : Function.Injective crcStep := by
  intro a b h
  refine BitVec.xor_eq_zero_iff.mp (crcStep_eq_zero _ ?_)
  rw [crcStep_xor, h, BitVec.xor_self]

theorem crc8Update_injective_right (r : Byte) : Function.Injective (crc8Update r) :=
  (crcStep_injective.iterate 8).comp fun _ _ h => (BitVec.xor_right_inj r).mp h

theorem crc8Update_injective_left (b : Byte) : Function.Injective fun r => crc8Update r b :=
  (crcStep_injective.iterate 8).comp fun _ _ h => (BitVec.xor_left_inj b).mp h

theorem crcFold_injective (data : List Byte) : Function.Injective fun r => crcFold r data := by
  induction data with
  | nil => exact fun _ _ h => h
  | cons b data ih => exact ih.comp (crc8Update_injective_left b)

/-! ### Zeros -/

/-- An update by the running value itself divides 0. -/
theorem crc8Update_self (c : Byte) : crc8Update c c = 0#8 := by
  rw [crc8Update_eq_iterate, BitVec.xor_self]
  rfl

theorem crcFold_replicate_zero (k : Nat) : crcFold 0#8 (List.replicate k 0#8) = 0#8 := by
  induction k with
  | zero => rfl
  | succ k ih => rw [List.replicate_succ, crcFold_cons, crc8Update_self, ih]

/-! ### Two changes that cancel -/

/-- A change `e` of one byte and a change `f` of a later one cancel when `e`, carried through as many zeros as bytes
stand between them, has become `f`. -/
theorem crc8_two_changes {between : List Byte} {e f : Byte}
    (h : (crc8Update · 0#8)^[between.length] (crc8Update 0#8 e) = f) (before after : List Byte) (x y : Byte) :
    crc8 (before ++ [x ^^^ e] ++ between ++ [y ^^^ f] ++ after) =
      crc8 (before ++ [x] ++ between ++ [y] ++ after) := by
  simp only [crc8_eq, crcFold_append, crcFold_cons, crcFold_nil]
  generalize crcFold 0#8 before = r
  rw [crc8Update_xor_right r, crcFold_xor _ _ between, h, crc8Update_xor, crc8Update_self, BitVec.xor_zero]

/-! ### The statements -/

/-- Settles O4: linearity is that of the division steps; injective on the finitely many bytes is bijective. -/
theorem crcUpdateIsLinearAndBijective : Obligations.CrcUpdateIsLinearAndBijective :=
  ⟨crc8Update_xor_right 0#8,
    fun r => Finite.injective_iff_bijective.mp (crc8Update_injective_right r),
    fun b => Finite.injective_iff_bijective.mp (crc8Update_injective_left b)⟩

/-- Settles O5: the appended CRC meets itself as the running value, and zeros keep the running value 0. -/
theorem crcSelfCheckAndLeadingZeros : Obligations.CrcSelfCheckAndLeadingZeros := by
  constructor
  · intro data
    rw [crc8_snoc, crc8Update_self]
  · intro k data
    rw [crc8_eq, crcFold_append, crcFold_replicate_zero, ← crc8_eq]

/-- Settles O6: the bytes update a same running value to different ones, and the rest of the sequence keeps them
different. -/
theorem oneChangedByteChangesTheCrc : Obligations.OneChangedByteChangesTheCrc := by
  intro before after x y hxy heq
  simp only [crc8_eq, crcFold_append, crcFold_cons, crcFold_nil] at heq
  exact hxy (crc8Update_injective_right _ (crcFold_injective after heq))

/-- Settles O7: the first bit, carried through the bytes between, has become the second. -/
theorem twoBits127ApartAreNotSeen : Obligations.TwoBits127ApartAreNotSeen := by
  constructor
  · intro before between after x y hlen
    refine crc8_two_changes ?_ before after x y
    rw [hlen]
    decide +kernel
  · intro before between after x y k hlen hk
    refine crc8_two_changes ?_ before after x y
    rw [hlen]
    have carried : ∀ k < 7, (crc8Update · 0#8)^[15] (crc8Update 0#8 (0x01#8 <<< k)) = 0x02#8 <<< k := by
      decide +kernel
    exact carried k hk

/-- Settles O1: CRCU answers the update, whose division step is the statement's. -/
theorem crcuReturnsEightDivisionSteps : Obligations.CrcuReturnsEightDivisionSteps :=
  fun _ _ _ => exec_crcu_eq_next.mpr rfl

/-- Settles O2: CRC8 answers the fold; the two sequences named are evaluated. -/
theorem crc8ReturnsTheFoldOfItsBytes : Obligations.Crc8ReturnsTheFoldOfItsBytes := by
  have fold : ∀ (data : List Byte) (s : State),
      exec (.crc8 data) s = .next { s with results := s.results ++ [.byte (data.foldl crc8Update 0x00#8)] } :=
    fun _ _ => exec_crc8_eq_next.mpr rfl
  refine ⟨fold, fold [], fun s => ?_⟩
  have value : [0x10#8, 0x03#8, 0x01#8, 0x02#8, 0x03#8].foldl crc8Update 0x00#8 = 0x40#8 := by
    decide +kernel
  rw [fold, value]

/-- Settles O3: the 256 entries are compared with the division, and the update sees its operands only through their
exclusive-or. -/
theorem crcTableHoldsTheUpdate : Obligations.CrcTableHoldsTheUpdate := by
  have entries : ∀ i : Byte, crcTableAt i = crc8Update 0x00#8 i := by decide +kernel
  exact ⟨by decide +kernel, entries, fun r b => by rw [entries, ← crc8Update_eq]⟩

end Sys2Proof.Machine
end

section
/-! PROOFS. The decoder and the encoder (30_encoding.md): each instruction is read back from its encoding, and nothing
but an encoding is read. -/

namespace Sys2Proof

/-! ### Reading an encoding back -/

/-- SEND's length from its two bytes. -/
theorem txLen_of_bytes (n : BitVec 16) :
    BitVec.ofNat 16 ((BitVec.ofNat 8 n.toNat).toNat + 256 * (BitVec.ofNat 8 (n.toNat / 256)).toNat) = n := by
  refine BitVec.eq_of_toNat_eq ?_
  simp only [BitVec.toNat_ofNat]
  have := n.isLt
  omega

/-- And the two bytes from the length. -/
theorem bytes_of_txLen (lo hi : Byte) :
    let n : BitVec 16 := BitVec.ofNat 16 (lo.toNat + 256 * hi.toNat)
    BitVec.ofNat 8 n.toNat = lo ∧ BitVec.ofNat 8 (n.toNat / 256) = hi := by
  have hlo := lo.isLt
  have hhi := hi.isLt
  constructor <;> refine BitVec.eq_of_toNat_eq ?_ <;> simp only [BitVec.toNat_ofNat] <;> omega

theorem decodeInit_flags (hasMsg hasSink : Bool) (rest : List Byte) :
    decodeInit ((flagByte hasMsg + (flagByte hasSink <<< 1)) :: rest) = .ok (.init hasMsg hasSink, rest) := by
  cases hasMsg <;> cases hasSink <;> rfl

theorem decodeSend_operands (id : Byte) (n : TxLen) {present : Bool} {pay : List Byte} (rest : List Byte)
    (h : present = false → pay = []) :
    decodeSend (id :: BitVec.ofNat 8 n.toNat :: BitVec.ofNat 8 (n.toNat / 256) :: flagByte present ::
      (encodeSeq pay ++ rest)) = .ok (.send id n present pay, rest) := by
  simp only [decodeSend, takeSeq_encodeSeq, Config.txLenW, txLen_of_bytes]
  cases present with
  | false => simp [flagByte, h rfl]
  | true => simp [flagByte]

/-- The owner's operations are read back, and what follows is left. -/
theorem decodeOp_encode {i : Instr} (hf : i.format = .op) (hw : i.wellFormed = true) (rest : List Byte) :
    decodeOp (encode i ++ rest) = .ok (i, rest) := by
  cases i with
  | init hasMsg hasSink => exact decodeInit_flags hasMsg hasSink rest
  | rxs bytes => simp [encode, decodeOp, decodeRxs, takeSeq_encodeSeq]
  | crc8 data => simp [encode, decodeOp, decodeCrc8, takeSeq_encodeSeq]
  | send id n present pay => exact decodeSend_operands id n rest ((wellFormed_send id n present pay).mp hw)
  | rxb | reset | rdrx | rdrej | rdtx | crcu => rfl
  | _ => simp [Instr.format] at hf

/-- A transition that the registers select is the one that the decode map answers. -/
theorem transitionOf_of_selectedBy {i : Instr} {regs : DecodeRegs} (hf : i.format = .rxdec) (hw : i.wellFormed = true)
    (hs : i.selectedBy regs = true) : ∃ st b, encode i = [b, st.code] ∧ transitionOf regs st b = i := by
  have hpos : ∀ {b : Byte}, 1 ≤ b.toNat → b ≠ 0#8 := by
    rintro b hb rfl
    simp at hb
  cases i with
  | tSync => exact ⟨.idle, _, rfl, rfl⟩
  | tSkip b => exact ⟨.idle, b, rfl, if_neg (by simpa [Instr.wellFormed] using hw)⟩
  | tId b => exact ⟨.gotSync, b, rfl, rfl⟩
  | tLen0 => exact ⟨.gotId, _, rfl, rfl⟩
  | tLen b =>
    obtain ⟨h1, h2⟩ := (wellFormed_tLen b).mp hw
    exact ⟨.gotId, b, rfl, by simp [transitionOf, hpos h1, Config.maxPayload, h2]⟩
  | tLenOvf b =>
    have h := (wellFormed_tLenOvf b).mp hw
    exact ⟨.gotId, b, rfl, by simp [transitionOf, hpos (by omega : 1 ≤ b.toNat), Config.maxPayload, Nat.not_le.mpr h]⟩
  | tData b => exact ⟨.gotLen, b, rfl, if_neg (by simpa [Instr.selectedBy] using hs)⟩
  | tDataEnd b => exact ⟨.gotLen, b, rfl, if_pos (by simpa [Instr.selectedBy] using hs)⟩
  | tAccept b => exact ⟨.gotPayload, b, rfl, if_pos (by simpa [Instr.selectedBy] using hs)⟩
  | tReject b => exact ⟨.gotPayload, b, rfl, if_neg (by simpa [Instr.selectedBy] using hs)⟩
  | _ => simp [Instr.format] at hf

/-- The transitions are read back under registers that select them. -/
theorem decodeRx_encode {i : Instr} {regs : DecodeRegs} (hf : i.format = .rxdec) (hw : i.wellFormed = true)
    (hs : i.selectedBy regs = true) (rest : List Byte) : decodeRx regs (encode i ++ rest) = .ok (i, rest) := by
  obtain ⟨st, b, henc, htr⟩ := transitionOf_of_selectedBy hf hw hs
  simp [henc, decodeRx, htr]

/-! ### What is read is an encoding -/

/-- INIT's flag byte, below 4, is the encoding of its two flags. -/
theorem flags_of_lt_four : ∀ f : Byte, f.toNat < 4 →
    f = flagByte (f.getLsbD 0) + (flagByte (f.getLsbD 1) <<< 1) := by decide

theorem eq_encode_of_decodeInit {bytes rest : List Byte} {i : Instr} (h : decodeInit bytes = .ok (i, rest)) :
    i.format = .op ∧ i.wellFormed = true ∧ 0#8 :: bytes = encode i ++ rest := by
  cases bytes with
  | nil => simp [decodeInit] at h
  | cons f bytes =>
    by_cases hf : f.toNat < 4
    · simp only [decodeInit, hf, if_true, Except.ok.injEq, Prod.mk.injEq] at h
      obtain ⟨rfl, rfl⟩ := h
      exact ⟨rfl, rfl, by rw [encode, ← flags_of_lt_four f hf]; rfl⟩
    · simp [decodeInit, hf] at h

theorem eq_encode_of_decodeSend {bytes rest : List Byte} {i : Instr} (h : decodeSend bytes = .ok (i, rest)) :
    i.format = .op ∧ i.wellFormed = true ∧ 4#8 :: bytes = encode i ++ rest := by
  unfold decodeSend at h
  split at h
  case h_2 => simp at h
  case h_1 id lo hi p bytes =>
    split at h
    case h_1 => simp at h
    case h_2 pay rest' hseq =>
      obtain ⟨hlo, hhi⟩ := bytes_of_txLen lo hi
      have hbytes := encodeSeq_of_takeSeq hseq
      simp only [Config.txLenW] at h
      split_ifs at h with h1 h0 hpay
      · simp only [Except.ok.injEq, Prod.mk.injEq] at h
        obtain ⟨rfl, rfl⟩ := h
        exact ⟨rfl, rfl, by simp only [encode, hlo, hhi, hbytes, h1]; rfl⟩
      · simp only [Except.ok.injEq, Prod.mk.injEq] at h
        obtain ⟨rfl, rfl⟩ := h
        rw [List.isEmpty_iff] at hpay
        exact ⟨rfl, rfl, by simp only [encode, hlo, hhi, hbytes, h0, hpay]; rfl⟩

theorem eq_rxs_of_decodeRxs {bytes rest : List Byte} {i : Instr} (h : decodeRxs bytes = .ok (i, rest)) :
    ∃ data, i = .rxs data ∧ bytes = encodeSeq data ++ rest := by
  unfold decodeRxs at h
  split at h
  case h_2 => simp at h
  case h_1 data rest' hseq =>
    simp only [Except.ok.injEq, Prod.mk.injEq] at h
    obtain ⟨rfl, rfl⟩ := h
    exact ⟨data, rfl, encodeSeq_of_takeSeq hseq⟩

theorem eq_crc8_of_decodeCrc8 {bytes rest : List Byte} {i : Instr} (h : decodeCrc8 bytes = .ok (i, rest)) :
    ∃ data, i = .crc8 data ∧ bytes = encodeSeq data ++ rest := by
  unfold decodeCrc8 at h
  split at h
  case h_2 => simp at h
  case h_1 data rest' hseq =>
    simp only [Except.ok.injEq, Prod.mk.injEq] at h
    obtain ⟨rfl, rfl⟩ := h
    exact ⟨data, rfl, encodeSeq_of_takeSeq hseq⟩

/-- Bytes that are read as an operation are its encoding, and the operation is well formed. -/
theorem eq_encode_of_decodeOp {bytes rest : List Byte} {i : Instr} (h : decodeOp bytes = .ok (i, rest)) :
    i.format = .op ∧ i.wellFormed = true ∧ bytes = encode i ++ rest := by
  cases bytes with
  | nil => simp [decodeOp] at h
  | cons op bytes =>
    have selector : ∀ {k : Nat}, op.toNat = k → op = BitVec.ofNat 8 k := by
      rintro k rfl
      simp
    simp only [decodeOp] at h
    split at h
    case h_1 hk => exact selector hk ▸ eq_encode_of_decodeInit h
    case h_2 hk =>
      cases bytes with
      | nil => simp [decodeRxb] at h
      | cons b bytes =>
        simp only [decodeRxb, Except.ok.injEq, Prod.mk.injEq] at h
        obtain ⟨rfl, rfl⟩ := h
        exact ⟨rfl, rfl, selector hk ▸ rfl⟩
    case h_3 hk =>
      obtain ⟨data, rfl, rfl⟩ := eq_rxs_of_decodeRxs h
      exact ⟨rfl, rfl, selector hk ▸ rfl⟩
    case h_5 hk => exact selector hk ▸ eq_encode_of_decodeSend h
    case h_9 hk =>
      obtain ⟨data, rfl, rfl⟩ := eq_crc8_of_decodeCrc8 h
      exact ⟨rfl, rfl, selector hk ▸ rfl⟩
    case h_10 hk =>
      match bytes, h with
      | [], h | [_], h => simp [decodeCrcu] at h
      | r :: b :: bytes, h =>
        simp only [decodeCrcu, Except.ok.injEq, Prod.mk.injEq] at h
        obtain ⟨rfl, rfl⟩ := h
        exact ⟨rfl, rfl, selector hk ▸ rfl⟩
    case h_11 => split at h <;> simp at h
    all_goals
      rename_i hk
      simp only [Except.ok.injEq, Prod.mk.injEq] at h
      obtain ⟨rfl, rfl⟩ := h
      exact ⟨rfl, rfl, selector hk ▸ rfl⟩

/-- Bytes that are read as a transition are its encoding, and the registers select it. -/
theorem eq_encode_of_decodeRx {regs : DecodeRegs} {bytes rest : List Byte} {i : Instr}
    (h : decodeRx regs bytes = .ok (i, rest)) :
    i.format = .rxdec ∧ i.wellFormed = true ∧ i.selectedBy regs = true ∧ bytes = encode i ++ rest := by
  match bytes, h with
  | [], h | [_], h => simp [decodeRx] at h
  | b :: c :: bytes, h =>
    simp only [decodeRx] at h
    split at h
    case h_2 => simp at h
    case h_1 st hst =>
      simp only [Except.ok.injEq, Prod.mk.injEq] at h
      obtain ⟨rfl, rfl⟩ := h
      obtain ⟨hf, hw, hsel, henc⟩ := transitionOf_spec regs st b
      exact ⟨hf, hw, hsel, by rw [henc, ParserState.code_of_ofCode hst]; rfl⟩

/-- Only a transition has a register condition. -/
theorem selectedBy_of_format_ne_rxdec {i : Instr} (h : i.format ≠ .rxdec) (regs : DecodeRegs) :
    i.selectedBy regs = true := by
  cases i with
  | tData | tDataEnd | tAccept | tReject => exact absurd rfl h
  | _ => rfl

/-- In each format, bytes whose front is read as an instruction are its encoding and what follows. -/
theorem eq_encode_of_decodeFront {fmt : Format} {regs : DecodeRegs} {bytes rest : List Byte} {i : Instr}
    (h : decodeFront fmt regs bytes = .ok (i, rest)) :
    i.format = fmt ∧ i.wellFormed = true ∧ i.selectedBy regs = true ∧ bytes = encode i ++ rest := by
  cases fmt with
  | op =>
    obtain ⟨hf, hw, hb⟩ := eq_encode_of_decodeOp h
    exact ⟨hf, hw, selectedBy_of_format_ne_rxdec (by simp [hf]) regs, hb⟩
  | rxdec => exact eq_encode_of_decodeRx h
  | wire =>
    obtain ⟨id, p, c, rfl, hp, hb⟩ := eq_encode_of_decodeWire h
    exact ⟨rfl, (wellFormed_frame id p c).mpr hp, rfl, hb⟩

/-- In each format an encoding is read back, and what follows is left. -/
theorem decodeFront_encode {i : Instr} {regs : DecodeRegs} (hw : i.wellFormed = true) (hs : i.selectedBy regs = true)
    (rest : List Byte) : decodeFront i.format regs (encode i ++ rest) = .ok (i, rest) := by
  cases hf : i.format with
  | op => exact decodeOp_encode hf hw rest
  | rxdec => exact decodeRx_encode hf hw hs rest
  | wire =>
    cases i with
    | frame id p c => exact decodeWire_encode_frame id c rest ((wellFormed_frame id p c).mp hw)
    | _ => simp [Instr.format] at hf

/-- A decode succeeds when the front is an instruction and only zeros stand behind it. -/
theorem decode_eq_ok {fmt : Format} {regs : DecodeRegs} {bytes : List Byte} {i : Instr} :
    decode fmt regs bytes = .ok i ↔ ∃ k, decodeFront fmt regs bytes = .ok (i, List.replicate k 0#8) := by
  unfold decode
  split
  case h_1 j rest hfront =>
    rw [hfront]
    constructor
    · intro h
      split_ifs at h with hz
      cases h
      have hzeros : rest = List.replicate rest.length 0#8 := List.eq_replicate_iff.mpr ⟨rfl, by simpa using hz⟩
      exact ⟨rest.length, by rw [← hzeros]⟩
    · rintro ⟨k, hk⟩
      cases hk
      simp
  case h_2 e hfront => simp [hfront]

/-! ### The statements -/

/-- Settles O8: in each format the encoding is read back from the front, and zeros are left. -/
theorem decodingAnEncodingGivesItBack : Obligations.DecodingAnEncodingGivesItBack :=
  fun _ _ k hw hs => decode_eq_ok.mpr ⟨k, decodeFront_encode hw hs _⟩

/-- Settles O9: in each format what is read from the front is an encoding, and zeros stand behind it. -/
theorem decoderAcceptsOnlyEncodings : Obligations.DecoderAcceptsOnlyEncodings := by
  intro fmt regs bytes i h
  obtain ⟨k, hfront⟩ := decode_eq_ok.mp h
  obtain ⟨hf, hw, hs, hb⟩ := eq_encode_of_decodeFront hfront
  exact ⟨hf, hw, hs, k, hb⟩

/-- Settles O10: each word is decoded. -/
theorem wordsOfTheTableDecode : Obligations.WordsOfTheTableDecode := by
  unfold Obligations.WordsOfTheTableDecode
  decide +kernel

end Sys2Proof
end

section
/-! PROOFS. The instructions one by one: the context operations (43_context_ops.md), the bytes around the payload
(41_frame_parser.md) and the refusals. -/

namespace Sys2Proof.Machine

/-! ### The context operations -/

/-- Settles O41: a successful INIT. -/
theorem initBringsTheContextUp : Obligations.InitBringsTheContextUp :=
  fun _ => exec_init_true

/-- Settles O42: with a collaborator absent INIT answers `ok = 0`. -/
theorem initWithoutACollaboratorFails : Obligations.InitWithoutACollaboratorFails :=
  fun _ _ _ habsent => exec_init_of_absent (Bool.and_eq_false_iff.mpr habsent)

/-- The two ways of INIT: it brings the context up, or answers `ok = 0`. -/
theorem exec_init_cases {hasMsg hasSink : Bool} {s t : State} (h : exec (.init hasMsg hasSink) s = .next t) :
    (hasMsg = true ∧ hasSink = true ∧ t = { s with
      ready := true, state := .idle, msgId := 0#8, msgLen := 0#8, cursor := 0#8, crc := 0#8
      framesRx := 0, framesRejected := 0, framesTx := 0, hasMsg := true, hasSink := true
      results := s.results ++ [.ok true] }) ∨
    ((hasMsg && hasSink) = false ∧ t = s.answer (.ok false)) := by
  cases hok : hasMsg && hasSink with
  | true =>
    obtain ⟨rfl, rfl⟩ := Bool.and_eq_true_iff.mp hok
    exact .inl ⟨rfl, rfl, next_eq_next.mp h⟩
  | false =>
    rw [exec_init_of_absent hok, next_eq_next] at h
    exact .inr ⟨rfl, h⟩

/-- On any context INIT completes. -/
theorem exec_init_completes (hasMsg hasSink : Bool) (s : State) :
    ∃ t, exec (.init hasMsg hasSink) s = .next t ∧ (s.ready = true → t.ready = true) := by
  cases hok : hasMsg && hasSink with
  | true =>
    obtain ⟨rfl, rfl⟩ := Bool.and_eq_true_iff.mp hok
    exact ⟨_, exec_init_true, fun _ => rfl⟩
  | false => exact ⟨_, exec_init_of_absent hok, id⟩

/-- Settles O43: RESET clears the parser's registers. -/
theorem resetClearsTheParserOnly : Obligations.ResetClearsTheParserOnly :=
  fun _ hr => exec_reset_eq_next.mpr ⟨hr, rfl⟩

/-- Settles O45: each read answers its counter. -/
theorem counterReadsReturnTheCounters : Obligations.CounterReadsReturnTheCounters :=
  fun _ hr => ⟨exec_rdrx_eq_next.mpr ⟨hr, rfl⟩, exec_rdrej_eq_next.mpr ⟨hr, rfl⟩, exec_rdtx_eq_next.mpr ⟨hr, rfl⟩⟩

/-! ### The bytes around the payload -/

/-- Settles O16: in `Idle` the sync marker opens a frame. -/
theorem syncByteStartsAFrame : Obligations.SyncByteStartsAFrame :=
  fun _ hr hs => ⟨exec_rxb_eq_next.mpr ⟨hr, parserByte_sync hs⟩, exec_tSync_eq_next.mpr ⟨hr, hs, rfl⟩⟩

/-- Settles O21: in `GotId` a length above 250 counts a rejection and goes to `Idle`. -/
theorem oversizedLengthIsRejectedAtOnce : Obligations.OversizedLengthIsRejectedAtOnce :=
  fun _ _ hr hs hb => ⟨exec_rxb_eq_next.mpr ⟨hr, parserByte_lenOvf hs hb⟩, exec_tLenOvf_eq_next.mpr ⟨hr, ⟨hs, hb⟩, rfl⟩⟩

/-- Settles O24: in `GotPayload` the running CRC counts the frame and emits its message. -/
theorem matchingChecksumAcceptsTheFrame : Obligations.MatchingChecksumAcceptsTheFrame :=
  fun _ hr hs hl => ⟨exec_rxb_eq_next.mpr ⟨hr, parserByte_accept hs hl⟩,
    exec_tAccept_eq_next.mpr ⟨hr, ⟨hs, rfl⟩, hl, rfl⟩⟩

/-- Settles O26: T_ACCEPT counts modulo `2^CNT_W`. -/
theorem receivedCounterWraps : Obligations.ReceivedCounterWraps := by
  intro s hr hs hl htop
  have hwrap : inc s.framesRx = 0 := by
    refine BitVec.eq_of_toNat_eq ?_
    rw [inc, BitVec.toNat_add, htop]
    rfl
  exact ⟨_, exec_rxb_eq_next.mpr ⟨hr, parserByte_accept hs hl⟩, hwrap, rfl, rfl, rfl⟩

/-! ### Refusals -/

/-- Settles O38: the arguments pass, and the payload is shorter than they say. -/
theorem shortPayloadIsRefused : Obligations.ShortPayloadIsRefused := by
  intro id n pay s hr hn hshort
  have hok : sendOk n true = true := sendOk_eq_true.mpr ⟨hn, nofun⟩
  calc exec (.send id n true pay) s
      = if sendOk n true then
          if pay.length < n.toNat then .refused .payloadTooShort
          else .next (((s.emit (.sink (sendBurst id n pay))).countSent).answer (.ok true))
        else .next (raise (.encodeRejected n true) s) := whenReady_of_ready hr _
    _ = .refused .payloadTooShort := by rw [if_pos hok, if_pos hshort]

/-- On a context that is not ready an unselected transition is refused for that reason, as a selected one is. -/
theorem whenSelected_of_not_ready {s : State} {p : Prop} [Decidable p] (h : s.ready = false) (o : Outcome) :
    whenSelected s p o = .refused .notReady := whenReady_of_not_ready h _

/-- Settles O46: INIT has two answers, CRC8 and CRCU one each; every other meaning begins with the check of `ready`. -/
theorem unreadyContextRunsInitAndCrcOnly : Obligations.UnreadyContextRunsInitAndCrcOnly := by
  intro s i hr
  cases i with
  | init hasMsg hasSink =>
    obtain ⟨t, ht, -⟩ := exec_init_completes hasMsg hasSink s
    exact ⟨t, ht⟩
  | crc8 data => exact ⟨_, exec_crc8_eq_next.mpr rfl⟩
  | crcu r b => exact ⟨_, exec_crcu_eq_next.mpr rfl⟩
  | rxb | rxs | reset | send | rdrx | rdrej | rdtx | frame => exact whenReady_of_not_ready hr _
  | _ => exact whenSelected_of_not_ready hr _

/-- On a context that is not ready no transition runs. -/
theorem exec_transition_of_not_ready {i : Instr} {s : State} (hf : i.format = .rxdec) (hr : s.ready = false) :
    exec i s = .refused .notReady := by
  have hun := unreadyContextRunsInitAndCrcOnly s i hr
  cases i with
  | init | crc8 | crcu => simp [Instr.format] at hf
  | _ => exact hun

/-- Settles O47: each premise contradicts the condition under which the transition is selected. -/
theorem unselectedTransitionsAreRefused : Obligations.UnselectedTransitionsAreRefused := by
  intro s b hr
  refine ⟨?tSync, fun h => ?tSkip, ?tId, ?tLen0, fun h => ?tLen, fun h => ?tLenOvf, fun h => ?tData, fun h => ?tDataEnd,
    fun h => ?tAccept, fun h => ?tReject⟩
  case tSync | tId | tLen0 => exact fun h => whenSelected_of_not hr h _
  case tSkip => exact whenSelected_of_not hr (fun ⟨hs, hb⟩ => h.elim (· hs) hb) _
  case tLen =>
    refine whenSelected_of_not hr ?_ _
    rintro ⟨hs, hpos, hle⟩
    obtain h | h | h := h
    · exact h hs
    · omega
    · exact Nat.not_le.mpr h hle
  case tLenOvf => exact whenSelected_of_not hr (fun ⟨hs, hgt⟩ => h.elim (· hs) (Nat.not_le.mpr hgt)) _
  case tData => exact whenSelected_of_not hr (fun ⟨hs, hn⟩ => h.elim (· hs) hn) _
  case tDataEnd => exact whenSelected_of_not hr (fun ⟨hs, he⟩ => h.elim (· hs) (· he)) _
  case tAccept => exact whenSelected_of_not hr (fun ⟨hs, hb⟩ => h.elim (· hs) (· hb)) _
  case tReject => exact whenSelected_of_not hr (fun ⟨hs, hb⟩ => h.elim (· hs) hb) _

/-! ### After reset -/

/-- Settles O48: the fields are those of `State.reset`, and a byte in `Idle` is the sync marker or skipped. -/
theorem resetLeavesTheStatedValues : Obligations.ResetLeavesTheStatedValues := by
  refine ⟨rfl, rfl, rfl, rfl, rfl, rfl, rfl, rfl, rfl, rfl, rfl, fun b => ?_⟩
  split_ifs with hb
  · obtain ⟨hrxb, htSync⟩ := syncByteStartsAFrame State.reset rfl rfl
    rw [hb, hrxb, htSync]
  · obtain ⟨hrxb, htSkip⟩ := otherByteInIdleIsDiscarded State.reset b rfl rfl hb
    rw [hrxb, htSkip]

end Sys2Proof.Machine
end

section
/-! PROOFS. The step: what a transfer amounts to, the transition a received byte drives (30_encoding.md R98) and the
sequences. -/

namespace Sys2Proof.Machine

/-! ### The transition a byte drives -/

/-- A store outside the buffer is a fault. -/
theorem parserByte_store_outside {b : Byte} {s : State} (h : s.state = .gotLen) (hc : 250 ≤ s.cursor.toNat) :
    parserByte b s = .fault (.rxBufIndexOutside s.cursor.toNat) := by
  have hstore : storePayload b s = .fault (.rxBufIndexOutside s.cursor.toNat) := if_neg (Nat.not_lt.mpr hc)
  simp only [parserByte, h, hstore, andThen_fault]

/-- So is a view that ends outside it. -/
theorem parserByte_view_outside {s : State} (h : s.state = .gotPayload) (hl : 250 < s.msgLen.toNat) :
    parserByte s.crc s = .fault (.rxBufIndexOutside (s.msgLen.toNat - 1)) := by
  simp only [parserByte, h, if_true]
  exact if_neg (Nat.not_le.mpr hl)

/-- What the decode map makes of a byte under the parser's registers does what RXB of that byte does, on any
context. -/
theorem exec_transitionOf (b : Byte) (s : State) : exec (transitionOf s.decodeRegs s.state b) s = exec (.rxb b) s := by
  have selected : ∀ {p : Prop} [Decidable p] {o : Outcome}, p → o = parserByte b s →
      whenSelected s p o = exec (.rxb b) s := by
    intro p _ o hp ho
    rw [whenSelected, if_pos hp, ho]
    rfl
  cases hs : s.state with
  | idle =>
    by_cases hb : b = 0xA5#8
    · subst hb
      exact selected hs (parserByte_sync hs).symm
    · rw [show transitionOf s.decodeRegs .idle b = .tSkip b from if_neg hb]
      exact selected ⟨hs, hb⟩ (parserByte_skip hs hb).symm
  | gotSync => exact selected hs (parserByte_id hs).symm
  | gotId =>
    by_cases h0 : b = 0#8
    · subst h0
      exact selected hs (parserByte_len0 hs).symm
    · have hpos : 1 ≤ b.toNat := Nat.one_le_iff_ne_zero.mpr fun h => h0 (BitVec.eq_of_toNat_eq h)
      by_cases hb : b.toNat ≤ 250
      · rw [show transitionOf s.decodeRegs .gotId b = .tLen b by simp [transitionOf, h0, hb, Config.maxPayload]]
        exact selected ⟨hs, hpos, hb⟩ (parserByte_len hs h0 hb).symm
      · rw [show transitionOf s.decodeRegs .gotId b = .tLenOvf b by simp [transitionOf, h0, hb, Config.maxPayload]]
        exact selected ⟨hs, Nat.lt_of_not_le hb⟩ (parserByte_lenOvf hs (Nat.lt_of_not_le hb)).symm
  | gotLen =>
    have stored : ∀ {st : ParserState}, (s.cursor.toNat < 250 → parserByte b s = .next ((s.storeByte b).goto st)) →
        (andThen (storePayload b s) fun t => .next (t.goto st)) = parserByte b s := by
      intro st h
      by_cases hc : s.cursor.toNat < 250
      · rw [storePayload_of_lt hc, h hc, andThen_next]
      · rw [parserByte_store_outside hs (Nat.le_of_not_lt hc), storePayload, Config.maxPayload, if_neg hc,
          andThen_fault]
    by_cases he : s.cursor + 1#8 = s.msgLen
    · rw [show transitionOf s.decodeRegs .gotLen b = .tDataEnd b from if_pos he]
      exact selected ⟨hs, he⟩ (stored fun hc => parserByte_dataEnd hs hc he)
    · rw [show transitionOf s.decodeRegs .gotLen b = .tData b from if_neg he]
      exact selected ⟨hs, he⟩ (stored fun hc => parserByte_data hs hc he)
  | gotPayload =>
    by_cases hb : b = s.crc
    · rw [show transitionOf s.decodeRegs .gotPayload b = .tAccept b from if_pos hb]
      exact selected ⟨hs, hb⟩ (by simp only [parserByte, hs, if_pos hb])
    · rw [show transitionOf s.decodeRegs .gotPayload b = .tReject b from if_neg hb]
      exact selected ⟨hs, hb⟩ (parserByte_reject hs hb).symm

/-- Whatever a byte does, it is not refused. -/
theorem parserByte_ne_refused (b : Byte) (s : State) (r : Refusal) : parserByte b s ≠ .refused r := by
  cases hs : s.state with
  | idle =>
    by_cases hb : b = 0xA5#8
    · rw [hb, parserByte_sync hs]; nofun
    · rw [parserByte_skip hs hb]; nofun
  | gotSync => rw [parserByte_id hs]; nofun
  | gotId =>
    by_cases h0 : b = 0#8
    · rw [h0, parserByte_len0 hs]; nofun
    · by_cases hb : b.toNat ≤ 250
      · rw [parserByte_len hs h0 hb]; nofun
      · rw [parserByte_lenOvf hs (Nat.lt_of_not_le hb)]; nofun
  | gotLen =>
    by_cases hc : s.cursor.toNat < 250
    · by_cases he : s.cursor + 1#8 = s.msgLen
      · rw [parserByte_dataEnd hs hc he]; nofun
      · rw [parserByte_data hs hc he]; nofun
    · rw [parserByte_store_outside hs (Nat.le_of_not_lt hc)]; nofun
  | gotPayload =>
    by_cases hb : b = s.crc
    · by_cases hl : s.msgLen.toNat ≤ 250
      · rw [hb, parserByte_accept hs hl]; nofun
      · rw [hb, parserByte_view_outside hs (Nat.lt_of_not_le hl)]; nofun
    · rw [parserByte_reject hs hb]; nofun

/-- What is not refused as not selected meets its condition. -/
theorem of_whenSelected_ne {s : State} {p : Prop} [Decidable p] {o : Outcome} (hr : s.ready = true)
    (h : whenSelected s p o ≠ .refused .transitionNotSelected) : p :=
  by_contra fun hp => h (whenSelected_of_not hr hp o)

/-- A transition that is not refused is the one that its byte drives. -/
theorem eq_transitionOf_of_ne_refused {s : State} {b : Byte} {j : Instr} (hr : s.ready = true)
    (hf : j.format = .rxdec) (hb : (encode j).head? = some b)
    (h : exec j s ≠ .refused .transitionNotSelected) : j = transitionOf s.decodeRegs s.state b := by
  cases j with
  | tSync =>
    have hs := of_whenSelected_ne hr h
    cases hb
    rw [hs]; rfl
  | tSkip c =>
    obtain ⟨hs, hc⟩ := of_whenSelected_ne hr h
    cases hb
    rw [hs]; exact (if_neg hc).symm
  | tId c =>
    have hs := of_whenSelected_ne hr h
    cases hb
    rw [hs]; rfl
  | tLen0 =>
    have hs := of_whenSelected_ne hr h
    cases hb
    rw [hs]; rfl
  | tLen c =>
    obtain ⟨hs, hpos, hle⟩ := of_whenSelected_ne hr h
    have h0 : c ≠ 0#8 := by rintro rfl; simp at hpos
    cases hb
    simp [hs, transitionOf, h0, hle]
  | tLenOvf c =>
    obtain ⟨hs, hgt⟩ := of_whenSelected_ne hr h
    have h0 : c ≠ 0#8 := by rintro rfl; simp at hgt
    cases hb
    simp [hs, transitionOf, h0, Nat.not_le.mpr hgt]
  | tData c =>
    obtain ⟨hs, hn⟩ := of_whenSelected_ne hr h
    cases hb
    rw [hs]; exact (if_neg hn).symm
  | tDataEnd c =>
    obtain ⟨hs, he⟩ := of_whenSelected_ne hr h
    cases hb
    rw [hs]; exact (if_pos he).symm
  | tAccept c =>
    obtain ⟨hs, he⟩ := of_whenSelected_ne hr h
    cases hb
    rw [hs]; exact (if_pos he).symm
  | tReject c =>
    obtain ⟨hs, hn⟩ := of_whenSelected_ne hr h
    cases hb
    rw [hs]; exact (if_neg hn).symm
  | _ => simp [Instr.format] at hf

/-- A transition that completes does what RXB of its byte does, on a ready context. -/
theorem parserByte_of_exec_transition {i : Instr} {s t : State} (hf : i.format = .rxdec) (h : exec i s = .next t) :
    ∃ b, (encode i).head? = some b ∧ s.ready = true ∧ parserByte b s = .next t := by
  have hr : s.ready = true := by
    by_contra hr
    rw [exec_transition_of_not_ready hf (by simpa using hr)] at h
    cases h
  obtain ⟨b, hb⟩ : ∃ b, (encode i).head? = some b := by cases i <;> exact ⟨_, rfl⟩
  have hi := eq_transitionOf_of_ne_refused hr hf hb (by rw [h]; nofun)
  rw [hi, exec_transitionOf] at h
  exact ⟨b, hb, exec_rxb_eq_next.mp h⟩

/-- Settles O15: it is the one that the decode map answers. -/
theorem everyByteDrivesExactlyOneTransition : Obligations.EveryByteDrivesExactlyOneTransition := by
  intro s b hr
  obtain ⟨hf, hw, -, henc⟩ := transitionOf_spec s.decodeRegs s.state b
  have hexec := exec_transitionOf b s
  refine ⟨_, ⟨hf, hw, by rw [henc]; rfl, ?_⟩, hexec.symm, ?_⟩
  · rw [hexec, show exec (.rxb b) s = parserByte b s from whenReady_of_ready hr _]
    exact parserByte_ne_refused b s _
  · exact fun j hj _ hb hsel => eq_transitionOf_of_ne_refused hr hj hb hsel

/-! ### Sequences -/

/-- FRAME is RXS of its bytes, on any context. -/
theorem exec_frame (id check : Byte) (p : List Byte) (s : State) :
    exec (.frame id p check) s = exec (.rxs ([0xA5#8, id, BitVec.ofNat 8 p.length] ++ p ++ [check])) s := rfl

/-- Settles O28: the run over a sequence is that over its parts, and RXB is the run over one byte. -/
theorem sequencesRunByteByByte : Obligations.SequencesRunByteByByte := by
  refine fun s => ⟨fun hr => ⟨?empty, fun b => ?one, fun x y => ?append⟩, fun id check p => exec_frame id check p s⟩
  case empty => exact exec_rxs_eq_next.mpr ⟨hr, rfl⟩
  case one =>
    rw [exec_rxs_of_ready hr, parserBytes_cons, show exec (.rxb b) s = parserByte b s from whenReady_of_ready hr _]
    cases parserByte b s <;> rfl
  case append =>
    rw [exec_rxs_of_ready hr, exec_rxs_of_ready hr, parserBytes_append]
    cases hx : parserBytes x s with
    | next u => exact (exec_rxs_of_ready ((parserBytes_ready hx).trans hr) y).symm
    | fault r => rfl
    | refused r => rfl

/-- Bytes of the wire do what RXS of them does, a whole frame or not. -/
theorem exec_decodeStream (bytes : List Byte) (s : State) : exec (decodeStream bytes) s = exec (.rxs bytes) s := by
  obtain h | ⟨id, p, c, -, h, rfl⟩ := decodeStream_cases bytes
  · rw [h]
  · rw [h, exec_frame]; rfl

/-! ### The step -/

/-- The operation of the owner that a transfer amounts to; no register of the engine is asked. -/
def Payload.operation : Payload → Except DecodeError Instr
  | .op bytes => decode .op { cursor := 0#8, msgLen := 0#8, crc := 0#8 } bytes
  | .rx b => .ok (.rxb b)
  | .wire bytes => .ok (.rxs bytes)

/-- An operation, if there is one, runs where its issuer may issue it. -/
def perform (o : Origin) (operation : Except DecodeError Instr) (s : State) : Outcome :=
  match operation with
  | .error e => .refused (.undecodable e)
  | .ok i => if o.permits i then exec i s else .refused (.insideEvent o)

theorem step_nil {s : State} (h : s.input = []) : step s = .next s := by simp [step, h]

/-- What a step does with the transfer it decodes. -/
theorem step_cons {s : State} {t : Transfer} {rest : List Transfer} (h : s.input = t :: rest) :
    step s = perform t.origin (decodeTransfer s t) s.popInput := by
  cases hd : decodeTransfer s t <;> simp only [step, h, hd, perform]

/-- The decoder under the parser's registers gives the transition of the byte. -/
theorem decode_rx (s : State) (b : Byte) :
    decode .rxdec s.decodeRegs [b, s.state.code] = .ok (transitionOf s.decodeRegs s.state b) := by
  simp [decode, decodeFront, decodeRx]

/-- From inside an event no byte may be presented, in whatever form. -/
theorem permits_of_format {i : Instr} (h : i.format ≠ .op) (o : Origin) : o.permits i = o.permits (.rxs []) := by
  cases o with
  | owner => rfl
  | inMessageEvent | inSinkEvent =>
    cases i with
    | init | rxb | rxs | reset | send | rdrx | rdrej | rdtx | crc8 | crcu => exact absurd rfl h
    | _ => rfl

/-- A step performs the operation that the transfer amounts to. -/
theorem step_eq_perform {s : State} {t : Transfer} {rest : List Transfer} (h : s.input = t :: rest) :
    step s = perform t.origin t.payload.operation s.popInput := by
  rw [step_cons h, decodeTransfer]
  cases t.payload with
  | op bytes => rfl
  | rx b =>
    have hf : (transitionOf s.decodeRegs s.state b).format ≠ .op := by
      simp [(transitionOf_spec s.decodeRegs s.state b).1]
    have hp : t.origin.permits (.rxb b) = t.origin.permits (.rxs []) := by cases t.origin <;> rfl
    simp only [decode_rx, Payload.operation, perform, permits_of_format hf, hp]
    rw [← exec_transitionOf b s.popInput]
    rfl
  | wire bytes =>
    have hp : t.origin.permits (decodeStream bytes) = t.origin.permits (.rxs bytes) := by
      obtain hd | ⟨id, p, c, -, hd, -⟩ := decodeStream_cases bytes <;> rw [hd]
      cases t.origin <;> rfl
    simp only [Payload.operation, perform, hp, exec_decodeStream]

/-- What a transfer amounts to is an operation of the owner. -/
theorem Payload.operation_format {p : Payload} {i : Instr} (h : p.operation = .ok i) : i.format = .op := by
  cases p with
  | op bytes => exact (decoderAcceptsOnlyEncodings _ _ _ _ h).1
  | rx b => cases h; rfl
  | wire bytes => cases h; rfl

/-- The three ways of a step: nothing is presented, the transfer is refused, or an operation of the owner runs. -/
theorem step_cases (s : State) :
    (s.input = [] ∧ step s = .next s) ∨ (∃ r, step s = .refused r) ∨
      ∃ i, i.format = .op ∧ step s = exec i s.popInput := by
  cases hin : s.input with
  | nil => exact .inl ⟨rfl, step_nil hin⟩
  | cons t rest =>
    refine .inr ?_
    rw [step_eq_perform hin]
    cases hop : t.payload.operation with
    | error e => exact .inl ⟨_, rfl⟩
    | ok i =>
      by_cases hp : t.origin.permits i
      · exact .inr ⟨i, Payload.operation_format hop, if_pos hp⟩
      · exact .inl ⟨_, if_neg hp⟩

/-! ### The statements -/

/-- Settles O12: the statement's decoding is `decodeTransfer`. -/
theorem stepRunsTheDecodedTransfer : Obligations.StepRunsTheDecodedTransfer := by
  intro s t rest i hin hdec hperm
  have hdec' : decodeTransfer s t = .ok i := hdec
  calc step s = perform t.origin (.ok i) s.popInput := by rw [step_cons hin, hdec']
    _ = exec i s.popInput := if_pos hperm
    _ = exec i { s with input := rest } := by rw [State.popInput, hin, List.tail_cons]

/-- Settles O13: with no transfer the step answers the state. -/
theorem nothingPresentedNothingChanges : Obligations.NothingPresentedNothingChanges :=
  fun _ h => step_nil h

/-- Settles O11: the selectors from 10 on select no operation. -/
theorem reservedSelectorsAreRefused : Obligations.ReservedSelectorsAreRefused := by
  intro op rest s h10 h15
  have hop : decodeOp (op :: rest) = .error .reservedSelector := by
    simp only [decodeOp]
    split
    case h_11 => exact if_pos (by omega)
    all_goals omega
  rw [step_eq_perform (t := ⟨.owner, .op (op :: rest)⟩) rfl]
  simp [Payload.operation, decode, decodeFront, hop, perform]

/-- Settles O14: the encoding is read back (O8), and R272 says which operations may run. -/
theorem operationsFromInsideAnEvent : Obligations.OperationsFromInsideAnEvent := by
  intro s i hw hf
  have hread : Payload.operation (.op (encode i)) = .ok i := by
    have h := decodingAnEncodingGivesItBack i ⟨0#8, 0#8, 0#8⟩ 0 hw (selectedBy_of_format_ne_rxdec (by simp [hf]) _)
    rwa [hf, List.replicate_zero, List.append_nil] at h
  have hstep : ∀ o : Origin, step { s with input := { origin := o, payload := .op (encode i) } :: s.input } =
      perform o (.ok i) s := by
    intro o
    rw [← hread]
    exact step_eq_perform (t := ⟨o, .op (encode i)⟩) rfl
  intro inside
  simp only [inside, hstep]
  cases i with
  | init | rxb | rxs | reset | send | rdrx | rdrej | rdtx | crc8 | crcu => exact ⟨rfl, rfl⟩
  | _ => simp [Instr.format] at hf

end Sys2Proof.Machine
end

section
/-! PROOFS. The invariant of the machine (10_state.md R28): every received byte is taken and keeps it, and so do every
operation and every step. -/

namespace Sys2Proof.Machine

/-! ### What a received byte leaves alone -/

/-- The fields outside the receiving side of the context. -/
structure State.SameBesideReceiver (s t : State) : Prop where
  ready    : t.ready = s.ready
  hasMsg   : t.hasMsg = s.hasMsg
  hasSink  : t.hasSink = s.hasSink
  framesTx : t.framesTx = s.framesTx
  results  : t.results = s.results
  input    : t.input = s.input

theorem State.SameBesideReceiver.refl (s : State) : s.SameBesideReceiver s := ⟨rfl, rfl, rfl, rfl, rfl, rfl⟩

theorem State.SameBesideReceiver.trans {s t u : State} (h : s.SameBesideReceiver t) (k : t.SameBesideReceiver u) :
    s.SameBesideReceiver u :=
  ⟨k.ready.trans h.ready, k.hasMsg.trans h.hasMsg, k.hasSink.trans h.hasSink, k.framesTx.trans h.framesTx,
    k.results.trans h.results, k.input.trans h.input⟩

/-- The state with another's receiving side: the parser's registers and the counters it writes. -/
def State.withReceiver (rest s : State) : State :=
  { rest with
    state := s.state, msgId := s.msgId, msgLen := s.msgLen, cursor := s.cursor, crc := s.crc
    framesRx := s.framesRx, framesRejected := s.framesRejected }

/-- The buffer that a received byte leaves. -/
def State.stored (s : State) (b : Byte) : RxBuf :=
  if s.state = .gotLen then s.rxBuf.write s.cursor.toNat b else s.rxBuf

/-- The events that a received byte emits. -/
def State.delivered (s : State) (b : Byte) : List Event :=
  if s.state = .gotPayload ∧ b = s.crc then [s.messageEvent] else []

/-- 20_memory.md R72: what a received byte does to the receiving side depends on nothing else; elsewhere it stores, and
emits a view of the buffer there is. -/
theorem parserByte_withReceiver {b : Byte} {s t : State} (h : parserByte b s = .next t) (rest : State) :
    parserByte b (rest.withReceiver s) = .next (State.withReceiver { rest with
      rxBuf := (rest.withReceiver s).stored b
      events := rest.events ++ (rest.withReceiver s).delivered b } t) := by
  generalize hu : rest.withReceiver s = u
  have hst : u.state = s.state := by rw [← hu]; rfl
  rcases parserByte_cases h with
    ⟨hs, rfl, rfl⟩ | ⟨hs, hb, rfl⟩ | ⟨hs, rfl⟩ | ⟨hs, hb, rfl⟩ | ⟨hs, rfl, rfl⟩ | ⟨hs, h0, hb, rfl⟩ |
    ⟨hs, hc, he, rfl⟩ | ⟨hs, hc, hn, rfl⟩ | ⟨hs, hb, hl, rfl⟩ | ⟨hs, hb, rfl⟩ <;>
    have hus := hst.trans hs <;> simp only [State.stored, State.delivered, hus, reduceCtorEq, if_true, if_false,
      true_and, false_and, List.append_nil] <;> subst hu
  · rw [parserByte_sync hus]; rfl
  · rw [parserByte_skip hus hb]; rfl
  · rw [parserByte_id hus]; rfl
  · rw [parserByte_lenOvf hus hb]; rfl
  · rw [parserByte_len0 hus]; rfl
  · rw [parserByte_len hus h0 hb]; rfl
  · rw [parserByte_dataEnd hus hc he]; rfl
  · rw [parserByte_data hus hc hn]; rfl
  · have hacc : b = (rest.withReceiver s).crc := hb
    rw [if_pos hacc, hacc, parserByte_accept hus hl]; rfl
  · have hrej : b ≠ (rest.withReceiver s).crc := hb
    rw [if_neg hrej, List.append_nil, parserByte_reject hus hrej]; rfl

/-- The next state, by what a received byte stores and emits. -/
theorem eq_of_parserByte {b : Byte} {s t : State} (h : parserByte b s = .next t) :
    t = State.withReceiver { s with rxBuf := s.stored b, events := s.events ++ s.delivered b } t :=
  next_eq_next.mp ((parserByte_withReceiver h s).symm.trans h)

theorem parserByte_sameBesideReceiver {b : Byte} {s t : State} (h : parserByte b s = .next t) :
    s.SameBesideReceiver t := by
  have ht := eq_of_parserByte h
  constructor <;> rw [ht] <;> rfl

theorem parserBytes_sameBesideReceiver {bytes : List Byte} {s t : State} (h : parserBytes bytes s = .next t) :
    s.SameBesideReceiver t :=
  parserBytes_induct State.SameBesideReceiver.refl (fun h1 h2 => (parserByte_sameBesideReceiver h1).trans h2) h

/-- The buffer after a received byte: written at the cursor in `GotLen`, and the same in any other state. -/
theorem parserByte_rxBuf {b : Byte} {s t : State} (h : parserByte b s = .next t) :
    (s.state = .gotLen ∧ s.cursor.toNat < 250 ∧ t.rxBuf = s.rxBuf.write s.cursor.toNat b) ∨
      (s.state ≠ .gotLen ∧ t.rxBuf = s.rxBuf) := by
  have hbuf : t.rxBuf = s.stored b := congrArg State.rxBuf (eq_of_parserByte h)
  by_cases hs : s.state = .gotLen
  · refine .inl ⟨hs, ?_, hbuf.trans (if_pos hs)⟩
    by_contra hc
    rw [parserByte_store_outside hs (Nat.le_of_not_lt hc)] at h
    cases h
  · exact .inr ⟨hs, hbuf.trans (if_neg hs)⟩

/-! ### The invariants of the parser -/

/-- What R28 says of the running CRC and the stored bytes once the length is known. -/
def State.PayloadInv (s : State) : Prop :=
  s.crc = crc8 ([s.msgId, s.msgLen] ++ s.rxView s.cursor.toNat) ∧ ∀ a < s.cursor.toNat, (s.rxBuf.written a).isSome

theorem State.parserInv_gotSync {s : State} (h : s.state = .gotSync) :
    s.ParserInv ↔ s.cursor = 0#8 ∧ s.crc = 0#8 := by simp [State.ParserInv, h]

theorem State.parserInv_gotId {s : State} (h : s.state = .gotId) :
    s.ParserInv ↔ s.cursor = 0#8 ∧ s.crc = crc8 [s.msgId] := by simp [State.ParserInv, h]

theorem State.parserInv_gotLen {s : State} (h : s.state = .gotLen) :
    s.ParserInv ↔ 1 ≤ s.msgLen.toNat ∧ s.msgLen.toNat ≤ 250 ∧ s.cursor.toNat < s.msgLen.toNat ∧ s.PayloadInv := by
  simp [State.ParserInv, State.PayloadInv, h]

theorem State.parserInv_gotPayload {s : State} (h : s.state = .gotPayload) :
    s.ParserInv ↔ s.msgLen.toNat ≤ 250 ∧ s.cursor = s.msgLen ∧ s.PayloadInv := by
  simp [State.ParserInv, State.PayloadInv, h]

/-- The length byte opens an empty payload. -/
theorem State.payloadInv_of_length {s : State} (b : Byte) (st : ParserState) (hc : s.cursor = 0#8)
    (hcrc : s.crc = crc8 [s.msgId]) :
    State.PayloadInv { s with msgLen := b, crc := crc8Update s.crc b, state := st } := by
  constructor
  · simp [hc, hcrc, ← crc8_snoc]
  · simp [hc]

/-- A stored byte extends the payload. -/
theorem State.PayloadInv.storeByte {s : State} (h : s.PayloadInv) (hc : s.cursor.toNat < 250) (b : Byte) :
    (s.storeByte b).PayloadInv := by
  obtain ⟨hcrc, hwritten⟩ := h
  constructor
  · simp only [State.storeByte_cursor, cursor_succ_toNat hc, State.storeByte_rxView_succ, State.storeByte_crc,
      State.storeByte_msgId, State.storeByte_msgLen, hcrc, ← crc8_snoc, List.append_assoc]
  · intro a ha
    rw [State.storeByte_cursor, cursor_succ_toNat hc] at ha
    rw [State.storeByte_rxBuf, RxBuf.written_write]
    split_ifs with hac
    · rfl
    · exact hwritten a (by omega)

/-- 10_state.md R28: a received byte keeps the table. -/
theorem parserByte_keepsParserInv {b : Byte} {s t : State} (hinv : s.ParserInv) (h : parserByte b s = .next t) :
    t.ParserInv := by
  rcases parserByte_cases h with
    ⟨-, -, rfl⟩ | ⟨-, -, rfl⟩ | ⟨hs, rfl⟩ | ⟨-, -, rfl⟩ | ⟨hs, rfl, rfl⟩ | ⟨hs, h0, hb, rfl⟩ |
    ⟨hs, hc, he, rfl⟩ | ⟨hs, hc, hn, rfl⟩ | ⟨-, -, -, rfl⟩ | ⟨-, -, rfl⟩
  · exact ⟨rfl, rfl⟩
  · exact hinv
  · obtain ⟨hcur, hcrc⟩ := (State.parserInv_gotSync hs).mp hinv
    exact ⟨hcur, by rw [hcrc]; rfl⟩
  · exact trivial
  · obtain ⟨hcur, hcrc⟩ := (State.parserInv_gotId hs).mp hinv
    exact ⟨Nat.zero_le _, hcur, State.payloadInv_of_length 0#8 .gotPayload hcur hcrc⟩
  · obtain ⟨hcur, hcrc⟩ := (State.parserInv_gotId hs).mp hinv
    have hpos : 1 ≤ b.toNat := Nat.one_le_iff_ne_zero.mpr fun h => h0 (BitVec.eq_of_toNat_eq h)
    have hlt : s.cursor.toNat < b.toNat := by simpa [hcur] using Nat.lt_of_lt_of_le Nat.one_pos hpos
    exact ⟨hpos, hb, hlt, State.payloadInv_of_length b .gotLen hcur hcrc⟩
  · obtain ⟨-, hle, -, hpay⟩ := (State.parserInv_gotLen hs).mp hinv
    exact ⟨hle, he, hpay.storeByte hc b⟩
  · obtain ⟨hpos, hle, hlt, hpay⟩ := (State.parserInv_gotLen hs).mp hinv
    have hne := (cursor_succ_eq_msgLen_iff hc).not.mp hn
    have hlt' : (s.cursor + 1#8).toNat < s.msgLen.toNat := by rw [cursor_succ_toNat hc]; omega
    exact ⟨hpos, hle, hlt', hpay.storeByte hc b⟩
  · exact trivial
  · exact trivial

/-- 20_memory.md R68: under the table every received byte is taken. -/
theorem parserByte_completes {s : State} (hinv : s.ParserInv) (b : Byte) : ∃ t, parserByte b s = .next t := by
  cases hs : s.state with
  | idle =>
    by_cases hb : b = 0xA5#8
    · exact ⟨_, hb ▸ parserByte_sync hs⟩
    · exact ⟨_, parserByte_skip hs hb⟩
  | gotSync => exact ⟨_, parserByte_id hs⟩
  | gotId =>
    by_cases h0 : b = 0#8
    · exact ⟨_, h0 ▸ parserByte_len0 hs⟩
    · by_cases hb : b.toNat ≤ 250
      · exact ⟨_, parserByte_len hs h0 hb⟩
      · exact ⟨_, parserByte_lenOvf hs (Nat.lt_of_not_le hb)⟩
  | gotLen =>
    obtain ⟨-, hle, hlt, -⟩ := (State.parserInv_gotLen hs).mp hinv
    have hc : s.cursor.toNat < 250 := by omega
    by_cases he : s.cursor + 1#8 = s.msgLen
    · exact ⟨_, parserByte_dataEnd hs hc he⟩
    · exact ⟨_, parserByte_data hs hc he⟩
  | gotPayload =>
    obtain ⟨hle, -⟩ := (State.parserInv_gotPayload hs).mp hinv
    by_cases hb : b = s.crc
    · exact ⟨_, hb ▸ parserByte_accept hs hle⟩
    · exact ⟨_, parserByte_reject hs hb⟩

/-! ### The invariant of the machine -/

theorem State.Inv.parserInv {s : State} (h : s.Inv) (hr : s.ready = true) : s.ParserInv := (h.2 hr).2.2

theorem State.Inv.of_parserByte {b : Byte} {s t : State} (hinv : s.Inv) (hr : s.ready = true)
    (h : parserByte b s = .next t) : t.Inv := by
  obtain ⟨hwf, hready⟩ := hinv
  obtain ⟨hmsg, hsink, hp⟩ := hready hr
  have hsame := parserByte_sameBesideReceiver h
  have hwf' : t.rxBuf.wf = true := by
    obtain ⟨-, hc, hbuf⟩ | ⟨-, hbuf⟩ := parserByte_rxBuf h
    · rw [hbuf]; exact RxBuf.wf_write b hc hwf
    · rwa [hbuf]
  exact ⟨hwf', fun _ => ⟨hsame.hasMsg.trans hmsg, hsame.hasSink.trans hsink, parserByte_keepsParserInv hp h⟩⟩

/-- Under the invariant every sequence of bytes is taken, and the invariant is kept. -/
theorem parserBytes_completes (bytes : List Byte) : ∀ {s : State}, s.Inv → s.ready = true →
    ∃ t, parserBytes bytes s = .next t ∧ t.Inv ∧ t.ready = true := by
  induction bytes with
  | nil => exact fun hinv hr => ⟨_, rfl, hinv, hr⟩
  | cons b rest ih =>
    intro s hinv hr
    obtain ⟨u, hu⟩ := parserByte_completes (hinv.parserInv hr) b
    obtain ⟨t, ht, hkeep⟩ := ih (hinv.of_parserByte hr hu) ((parserByte_ready hu).trans hr)
    exact ⟨t, by rw [parserBytes_cons, hu, andThen_next, ht], hkeep⟩

theorem State.Inv.of_parserBytes {bytes : List Byte} {s t : State} (hinv : s.Inv) (hr : s.ready = true)
    (h : parserBytes bytes s = .next t) : t.Inv := by
  obtain ⟨u, hu, hkeep, -⟩ := parserBytes_completes bytes hinv hr
  rw [hu] at h
  cases h
  exact hkeep

/-- The invariant is about the context alone: results, events, counters and transfers do not enter it. -/
theorem State.Inv.congr_rest {s : State} (h : s.Inv) (rx rejected tx : Count) (input : List Transfer)
    (events : List Event) (results : List Result) :
    State.Inv { s with framesRx := rx, framesRejected := rejected, framesTx := tx, input, events, results } := h

/-- The parser in `Idle`, both collaborators there. -/
theorem State.inv_of_idle {s : State} (hwf : s.rxBuf.wf = true) (hs : s.state = .idle) (hm : s.hasMsg = true)
    (hk : s.hasSink = true) : s.Inv :=
  ⟨hwf, fun _ => ⟨hm, hk, by simp [State.ParserInv, hs]⟩⟩

/-- Every operation of the owner keeps the invariant. -/
theorem State.Inv.of_exec {i : Instr} {s t : State} (hf : i.format = .op) (hinv : s.Inv) (h : exec i s = .next t) :
    t.Inv := by
  cases i with
  | init hasMsg hasSink =>
    obtain ⟨rfl, rfl, rfl⟩ | ⟨-, rfl⟩ := exec_init_cases h
    · exact State.inv_of_idle hinv.1 rfl rfl rfl
    · exact hinv.congr_rest ..
  | rxb b =>
    obtain ⟨hr, hb⟩ := exec_rxb_eq_next.mp h
    exact hinv.of_parserByte hr hb
  | rxs bytes =>
    obtain ⟨hr, hb⟩ := exec_rxs_eq_next.mp h
    exact hinv.of_parserBytes hr hb
  | reset =>
    obtain ⟨hr, rfl⟩ := exec_reset_eq_next.mp h
    obtain ⟨hm, hk, -⟩ := hinv.2 hr
    exact State.inv_of_idle hinv.1 rfl hm hk
  | send id n present pay =>
    obtain ⟨-, ⟨-, -, rfl⟩ | ⟨-, rfl⟩⟩ := exec_send_eq_next.mp h <;> exact hinv.congr_rest ..
  | rdrx => obtain ⟨-, rfl⟩ := exec_rdrx_eq_next.mp h; exact hinv.congr_rest ..
  | rdrej => obtain ⟨-, rfl⟩ := exec_rdrej_eq_next.mp h; exact hinv.congr_rest ..
  | rdtx => obtain ⟨-, rfl⟩ := exec_rdtx_eq_next.mp h; exact hinv.congr_rest ..
  | crc8 data => obtain rfl := exec_crc8_eq_next.mp h; exact hinv.congr_rest ..
  | crcu r b => obtain rfl := exec_crcu_eq_next.mp h; exact hinv.congr_rest ..
  | _ => simp [Instr.format] at hf

/-- On a ready context that meets the invariant every operation of the owner completes, SEND with the `n` bytes it
claims. -/
theorem exec_completes {i : Instr} {s : State} (hf : i.format = .op) (hinv : s.Inv) (hr : s.ready = true)
    (hsend : ∀ id n present pay, i = .send id n present pay → present = true → n.toNat ≤ pay.length) :
    ∃ t, exec i s = .next t ∧ t.ready = true := by
  cases i with
  | init hasMsg hasSink =>
    obtain ⟨t, ht, hready⟩ := exec_init_completes hasMsg hasSink s
    exact ⟨t, ht, hready hr⟩
  | rxb b =>
    obtain ⟨t, ht⟩ := parserByte_completes (hinv.parserInv hr) b
    exact ⟨t, exec_rxb_eq_next.mpr ⟨hr, ht⟩, (parserByte_ready ht).trans hr⟩
  | rxs bytes =>
    obtain ⟨t, ht, -, hready⟩ := parserBytes_completes bytes hinv hr
    exact ⟨t, exec_rxs_eq_next.mpr ⟨hr, ht⟩, hready⟩
  | reset => exact ⟨_, exec_reset_eq_next.mpr ⟨hr, rfl⟩, hr⟩
  | send id n present pay =>
    cases hok : sendOk n present with
    | true => exact ⟨_, exec_send_of_sendOk id hr hok (hsend id n present pay rfl), hr⟩
    | false => exact ⟨_, exec_send_of_not_sendOk id pay hr hok, hr⟩
  | rdrx => exact ⟨_, exec_rdrx_eq_next.mpr ⟨hr, rfl⟩, hr⟩
  | rdrej => exact ⟨_, exec_rdrej_eq_next.mpr ⟨hr, rfl⟩, hr⟩
  | rdtx => exact ⟨_, exec_rdtx_eq_next.mpr ⟨hr, rfl⟩, hr⟩
  | crc8 data => exact ⟨_, exec_crc8_eq_next.mpr rfl, hr⟩
  | crcu r b => exact ⟨_, exec_crcu_eq_next.mpr rfl, hr⟩
  | _ => simp [Instr.format] at hf

/-- SEND answers or is refused: it touches no buffer. -/
theorem exec_send_ne_fault (id : Byte) (n : TxLen) (present : Bool) (pay : List Byte) (s : State) (r : Fault) :
    exec (.send id n present pay) s ≠ .fault r := by
  show execSend id n present pay s ≠ _
  unfold execSend whenReady
  split_ifs <;> nofun

/-- No operation of the owner reaches outside `rx_buf`: on a ready context all but SEND complete, and on any other
they complete or are refused. -/
theorem exec_ne_fault {i : Instr} {s : State} (hf : i.format = .op) (hinv : s.Inv) (r : Fault) :
    exec i s ≠ .fault r := by
  cases hr : s.ready with
  | true =>
    by_cases hsend : ∃ id n present pay, i = .send id n present pay
    · obtain ⟨id, n, present, pay, rfl⟩ := hsend
      exact exec_send_ne_fault id n present pay s r
    · obtain ⟨t, ht, -⟩ := exec_completes hf hinv hr fun id n present pay h => absurd ⟨id, n, present, pay, h⟩ hsend
      rw [ht]
      nofun
  | false =>
    have hun := unreadyContextRunsInitAndCrcOnly s i hr
    cases i with
    | init | crc8 | crcu =>
      obtain ⟨t, ht⟩ := hun
      rw [ht]
      nofun
    | _ => rw [hun]; nofun

/-! ### The statements -/

/-- Settles O49: after reset the parser is in `Idle`; on a context that is not ready only the buffer counts. -/
theorem invariantHoldsAtReset : Obligations.InvariantHoldsAtReset :=
  ⟨State.inv_of_idle rfl rfl rfl rfl, fun _ hr hwf => ⟨hwf, fun h => absurd (hr.symm.trans h) nofun⟩⟩

/-- Settles O50: a step changes nothing, or runs an operation of the owner without its transfer. -/
theorem everyStepKeepsTheInvariant : Obligations.EveryStepKeepsTheInvariant := by
  intro s t hinv h
  obtain ⟨-, hstep⟩ | ⟨r, hstep⟩ | ⟨i, hf, hstep⟩ := step_cases s <;> rw [hstep] at h
  · rw [next_eq_next] at h
    exact h ▸ hinv
  · cases h
  · exact State.Inv.of_exec hf (s := s.popInput) (hinv.congr_rest ..) h

/-- Settles O51: nor does any operation of the owner that a step runs. -/
theorem noStepLeavesTheBuffer : Obligations.NoStepLeavesTheBuffer := by
  intro s r hinv
  obtain ⟨-, hstep⟩ | ⟨r', hstep⟩ | ⟨i, hf, hstep⟩ := step_cases s <;> rw [hstep]
  · nofun
  · nofun
  · exact exec_ne_fault hf (s := s.popInput) (hinv.congr_rest ..) r

/-- Settles O52: an operation completes and keeps the invariant; FRAME is RXS of its bytes. -/
theorem everyOperationCompletes : Obligations.EveryOperationCompletes := by
  intro s i hinv hr hf hsend
  cases hfmt : i.format with
  | rxdec => exact absurd hfmt hf
  | op =>
    obtain ⟨t, ht, hready⟩ := exec_completes hfmt hinv hr (by rintro id n present pay rfl; exact hsend)
    exact ⟨t, ht, hinv.of_exec hfmt ht, hready⟩
  | wire =>
    cases i with
    | frame id p check =>
      rw [exec_frame, exec_rxs_of_ready hr]
      exact parserBytes_completes _ hinv hr
    | _ => simp [Instr.format] at hfmt

/-- Settles O60: bytes on the wire amount to RXS of them, which completes under the invariant. -/
theorem everyByteSequenceOnTheWireIsTaken : Obligations.EveryByteSequenceOnTheWireIsTaken := by
  intro s bytes
  have hstep : step (s.present (.wire bytes)) = exec (.rxs bytes) s :=
    step_eq_perform (s := s.present (.wire bytes)) (t := ⟨.owner, .wire bytes⟩) rfl
  refine ⟨hstep, fun hinv hr => ?_⟩
  rw [hstep, exec_rxs_of_ready hr]
  exact parserBytes_completes bytes hinv hr

end Sys2Proof.Machine
end

section
/-! PROOFS. Frames through the parser (41_frame_parser.md section 9): a valid one is delivered, one with a wrong byte or
an illegal length is rejected, and whatever is delivered was a frame of the stream. -/

namespace Sys2Proof.Machine

/-! ### A frame whose checksum byte arrives -/

/-- The view read at an index. -/
theorem State.rxByte_eq_of_rxView {s : State} {p : List Byte} (h : s.rxView p.length = p) {a : Nat}
    (ha : a < p.length) : s.rxByte a = p[a] := by
  have hget : (s.rxView p.length)[a]? = p[a]? := by rw [h]
  simpa [State.rxView, ha] using hget

/-- Settles O29: the running CRC behind the payload is the checksum byte, so T_ACCEPT emits the payload, which
stands at the buffer's start. -/
theorem validFrameIsDelivered : Obligations.ValidFrameIsDelivered := by
  intro s m p hr hs hp len check
  obtain ⟨u, hrun, hsame, hgot, hid, hlen, hcrc, hview, hrest⟩ := parserBytes_frameBody m hs hp
  have hlenNat : u.msgLen.toNat = p.length := by rw [hlen, BitVec.toNat_ofNat]; omega
  have hmsg : u.messageEvent = .msg m len p := by rw [State.messageEvent, hlenNat, hid, hlen, hview]
  have hframe : parserBytes ([0xA5#8, m, len] ++ p ++ [check]) s =
      .next ((u.countReceived.goto .idle).emit (.msg m len p)) := by
    rw [parserBytes_append, hrun, andThen_next, ← hmsg, show check = u.crc from hcrc.symm, parserBytes_cons,
      parserByte_accept hgot (by omega), andThen_next, parserBytes_nil]
  have hrxs := exec_rxs_eq_next.mpr ⟨hr, hframe⟩
  refine ⟨_, hrxs, (exec_frame m check p s).trans hrxs, ?_, ?_, ?_, rfl, ?_, ?_, ?_, ?_, ?_, ?_, hrest, ?_⟩
  · simp [hsame.events]
  · simp [hsame.framesRx, inc]
  iterate 7 · rw [hsame]; rfl
  · exact fun a ha => State.rxByte_eq_of_rxView hview ha

/-- From `Idle` a frame with any other checksum byte ends in T_REJECT. -/
theorem parserBytes_wrongChecksum {s : State} (m : Byte) {p : List Byte} {c : Byte} (hs : s.state = .idle)
    (hp : p.length ≤ 250) (hc : c ≠ crc8 ([m, BitVec.ofNat 8 p.length] ++ p)) :
    ∃ t, parserBytes ([0xA5#8, m, BitVec.ofNat 8 p.length] ++ p ++ [c]) s = .next t ∧ t.events = s.events ∧
      t.framesRejected = s.framesRejected + 1 ∧ t.framesRx = s.framesRx ∧ t.state = .idle := by
  obtain ⟨u, hrun, hsame, hgot, -, -, hcrc, -⟩ := parserBytes_frameBody m hs hp
  refine ⟨u.countRejected.goto .idle, ?_, hsame.events, ?_, hsame.framesRx, rfl⟩
  · rw [parserBytes_append, hrun, andThen_next, parserBytes_cons, parserByte_reject hgot (hcrc ▸ hc), andThen_next,
      parserBytes_nil]
  · rw [hsame]; rfl

/-- Settles O31: a changed id, payload byte or checksum byte makes the checksum wrong, since the CRC sees one changed
byte (O6); a changed sync byte leaves noise. -/
theorem oneCorruptedByteIsRejected : Obligations.OneCorruptedByteIsRejected := by
  intro s m y p hr hs hp len check rejected
  have wrong : ∀ {m' c : Byte} {p' : List Byte}, p'.length = p.length → c ≠ crc8 ([m', len] ++ p') →
      rejected ([0xA5#8, m', len] ++ p' ++ [c]) := by
    intro m' c p' hlen hc
    obtain ⟨t, hrun, heffects⟩ := parserBytes_wrongChecksum m' hs (hlen.le.trans hp) (by rw [hlen]; exact hc)
    rw [hlen] at hrun
    exact ⟨t, exec_rxs_eq_next.mpr ⟨hr, hrun⟩, heffects⟩
  refine ⟨fun hy => ?id, fun u v x hsplit hy => ?payload, fun hy => ?checksum, fun hy hrest => ?sync⟩
  case id => exact wrong rfl (oneChangedByteChangesTheCrc [] (len :: p) m y hy.symm)
  case payload =>
    refine wrong (by simp [hsplit]) ?_
    have hchanged := oneChangedByteChangesTheCrc ([m, len] ++ u) v x y hy.symm
    simpa only [check, hsplit, List.append_assoc] using hchanged
  case checksum => exact wrong rfl hy
  case sync =>
    rw [exec_rxs_of_ready hr]
    exact parserBytes_noise hs (List.forall_mem_cons.mpr ⟨hy, hrest⟩)

/-- From `Idle` the sync marker and an id lead to `GotId`. -/
theorem parserBytes_syncId {s : State} (m : Byte) (hs : s.state = .idle) : parserBytes [0xA5#8, m] s =
    .next { s with msgId := m, crc := crc8Update 0#8 m, cursor := 0#8, state := .gotId } := by
  rw [parserBytes_cons, parserByte_sync hs, andThen_next, parserBytes_cons, parserByte_id rfl]
  rfl

/-- Settles O32: the third byte is rejected by T_LENOVF, which leaves `Idle`: there other bytes are skipped and the
sync marker opens a frame. -/
theorem oversizedHeaderResynchronises : Obligations.OversizedHeaderResynchronises := by
  intro s m len hr hs hlen
  obtain ⟨t, ht⟩ : ∃ t : State, t = { s with
      msgId := m, msgLen := len, crc := crc8Update (crc8Update 0#8 m) len, cursor := 0#8
      framesRejected := s.framesRejected + 1, state := .idle } := ⟨_, rfl⟩
  have hidle : t.state = .idle := by rw [ht]
  have hheader : parserBytes [0xA5#8, m, len] s = .next t := by
    rw [show [0xA5#8, m, len] = [0xA5#8, m] ++ [len] from rfl, parserBytes_append, parserBytes_syncId m hs,
      andThen_next, parserBytes_cons, parserByte_lenOvf rfl hlen, ht]
    rfl
  refine ⟨t, exec_rxs_eq_next.mpr ⟨hr, hheader⟩, hidle, by rw [ht], by rw [ht], by rw [ht], fun x hx => ?_⟩
  rw [exec_rxs_of_ready hr, parserBytes_append, parserBytes_append, hheader, andThen_next, parserBytes_noise hidle hx,
    andThen_next, parserBytes_cons, parserByte_sync hidle]
  rfl

/-- Settles O33: the second marker is the id; of the ten cases of a byte only the marker in `Idle` leads to
`GotSync`. -/
theorem syncValueInsideAFrameIsData : Obligations.SyncValueInsideAFrameIsData := by
  constructor
  · intro s hr hs
    exact ⟨_, exec_rxs_eq_next.mpr ⟨hr, parserBytes_syncId 0xA5#8 hs⟩, rfl, rfl, rfl, rfl⟩
  · intro s t hs h
    obtain ⟨-, h⟩ := exec_rxb_eq_next.mp h
    rcases parserByte_cases h with
      ⟨hidle, -⟩ | ⟨hidle, -⟩ | ⟨-, rfl⟩ | ⟨-, -, rfl⟩ | ⟨-, -, rfl⟩ | ⟨-, -, -, rfl⟩ |
      ⟨-, -, -, rfl⟩ | ⟨-, -, -, rfl⟩ | ⟨-, -, -, rfl⟩ | ⟨-, -, rfl⟩
    iterate 2 exact absurd hidle hs
    all_goals nofun

/-! ### What is delivered -/

/-- The bytes of the frame in progress, from the sync marker on. -/
def State.inProgress (s : State) : List Byte :=
  match s.state with
  | .idle => []
  | .gotSync => [0xA5#8]
  | .gotId => [0xA5#8, s.msgId]
  | .gotLen => [0xA5#8, s.msgId, s.msgLen] ++ s.rxView s.cursor.toNat
  | .gotPayload => [0xA5#8, s.msgId, s.msgLen] ++ s.rxView s.cursor.toNat

theorem State.inProgress_idle {s : State} (h : s.state = .idle) : s.inProgress = [] := by simp [State.inProgress, h]

theorem State.inProgress_gotSync {s : State} (h : s.state = .gotSync) : s.inProgress = [0xA5#8] := by
  simp [State.inProgress, h]

theorem State.inProgress_gotId {s : State} (h : s.state = .gotId) : s.inProgress = [0xA5#8, s.msgId] := by
  simp [State.inProgress, h]

theorem State.inProgress_payload {s : State} (h : s.state = .gotLen ∨ s.state = .gotPayload) :
    s.inProgress = [0xA5#8, s.msgId, s.msgLen] ++ s.rxView s.cursor.toNat := by
  obtain h | h := h <;> simp [State.inProgress, h]

/-- A stored byte is the next of the frame. -/
theorem State.inProgress_storeByte {s : State} (hs : s.state = .gotLen) (hc : s.cursor.toNat < 250) (b : Byte)
    {st : ParserState} (hst : st = .gotLen ∨ st = .gotPayload) :
    ((s.storeByte b).goto st).inProgress = s.inProgress ++ [b] := by
  rw [State.inProgress_payload hst, State.inProgress_payload (.inl hs)]
  simp only [State.goto_msgId, State.goto_msgLen, State.goto_cursor, State.storeByte_msgId, State.storeByte_msgLen,
    State.storeByte_cursor, cursor_succ_toNat hc, List.append_assoc]
  rw [← State.storeByte_rxView_succ]
  rfl

/-- A received byte is the next of the frame in progress, or no frame is in progress after it. -/
theorem parserByte_inProgress {b : Byte} {s t : State} (hinv : s.ParserInv) (h : parserByte b s = .next t) :
    t.inProgress = s.inProgress ++ [b] ∨ t.inProgress = [] := by
  rcases parserByte_cases h with
    ⟨hs, rfl, rfl⟩ | ⟨hs, -, rfl⟩ | ⟨hs, rfl⟩ | ⟨-, -, rfl⟩ | ⟨hs, rfl, rfl⟩ | ⟨hs, -, -, rfl⟩ |
    ⟨hs, hc, -, rfl⟩ | ⟨hs, hc, -, rfl⟩ | ⟨-, -, -, rfl⟩ | ⟨-, -, rfl⟩
  · exact .inl (by rw [State.inProgress_idle hs, State.inProgress_gotSync rfl]; rfl)
  · exact .inr (State.inProgress_idle hs)
  · exact .inl (by rw [State.inProgress_gotSync hs, State.inProgress_gotId rfl]; rfl)
  · exact .inr rfl
  · obtain ⟨hcur, -⟩ := (State.parserInv_gotId hs).mp hinv
    exact .inl (by rw [State.inProgress_gotId hs, State.inProgress_payload (.inr rfl), hcur]; rfl)
  · obtain ⟨hcur, -⟩ := (State.parserInv_gotId hs).mp hinv
    exact .inl (by rw [State.inProgress_gotId hs, State.inProgress_payload (.inl rfl), hcur]; rfl)
  · exact .inl (State.inProgress_storeByte hs hc b (.inr rfl))
  · exact .inl (State.inProgress_storeByte hs hc b (.inl rfl))
  · exact .inr rfl
  · exact .inr rfl

/-- A received byte emits nothing, or it is the checksum of the frame in progress, and that frame's message is
emitted. -/
theorem parserByte_events {b : Byte} {s t : State} (hinv : s.ParserInv) (h : parserByte b s = .next t) :
    t.events = s.events ∨ ∃ (m : Byte) (p : List Byte), p.length ≤ 250 ∧
      t.events = s.events ++ [.msg m (BitVec.ofNat 8 p.length) p] ∧
      s.inProgress = [0xA5#8, m, BitVec.ofNat 8 p.length] ++ p ∧ b = crc8 ([m, BitVec.ofNat 8 p.length] ++ p) := by
  rcases parserByte_cases h with
    ⟨-, -, rfl⟩ | ⟨-, -, rfl⟩ | ⟨-, rfl⟩ | ⟨-, -, rfl⟩ | ⟨-, -, rfl⟩ | ⟨-, -, -, rfl⟩ |
    ⟨-, -, -, rfl⟩ | ⟨-, -, -, rfl⟩ | ⟨hs, hb, hle, rfl⟩ | ⟨-, -, rfl⟩
  iterate 8 exact .inl rfl
  · right
    obtain ⟨-, hcur, hcrc, -⟩ := (State.parserInv_gotPayload hs).mp hinv
    rw [hcur] at hcrc
    have hlen : BitVec.ofNat 8 (s.rxView s.msgLen.toNat).length = s.msgLen := by simp
    refine ⟨s.msgId, s.rxView s.msgLen.toNat, by simpa using hle, ?_, ?_, ?_⟩ <;> rw [hlen]
    · rfl
    · rw [State.inProgress_payload (.inr hs), hcur]
    · rw [hb, hcrc]
  · exact .inl rfl

/-- Settles O34: the byte is the checksum of the frame in progress. -/
theorem deliveredMessagesWereChecked : Obligations.DeliveredMessagesWereChecked := by
  intro s t b hinv h hne
  obtain ⟨hr, h⟩ := exec_rxb_eq_next.mp h
  obtain hsame | ⟨m, p, hp, hev, -, hb⟩ := parserByte_events (hinv.parserInv hr) h
  · exact absurd hsame hne
  · exact ⟨m, p, hev, hp, hb⟩

/-- The event is the message of a valid frame that stands in the bytes, with nothing between its fields. -/
def Event.StandsIn (e : Event) (bytes : List Byte) : Prop :=
  ∃ (before after : List Byte) (m : Byte) (p : List Byte), p.length ≤ 250 ∧
    e = .msg m (BitVec.ofNat 8 p.length) p ∧
    bytes = before ++ ([0xA5#8, m, BitVec.ofNat 8 p.length] ++ p ++
      [crc8 ([m, BitVec.ofNat 8 p.length] ++ p)]) ++ after

/-- With the frame in progress at the end of the bytes seen, every message that the next bytes deliver stands in the
whole stream. -/
theorem parserBytes_events (bytes : List Byte) : ∀ {seen : List Byte} {s t : State}, s.ParserInv →
    s.inProgress <:+ seen → parserBytes bytes s = .next t →
    ∃ new, t.events = s.events ++ new ∧ ∀ e ∈ new, e.StandsIn (seen ++ bytes) := by
  induction bytes with
  | nil =>
    intro seen s t _ _ h
    rw [parserBytes_nil, next_eq_next] at h
    exact ⟨[], by simp [h], by simp⟩
  | cons b rest ih =>
    intro seen s t hinv hseen h
    obtain ⟨u, hu, hrest⟩ := andThen_eq_next.mp h
    obtain ⟨before, hbefore⟩ := hseen
    have hseen' : u.inProgress <:+ seen ++ [b] := by
      obtain hnext | hnone := parserByte_inProgress hinv hu
      · exact ⟨before, by rw [hnext, ← hbefore, List.append_assoc]⟩
      · exact hnone ▸ List.nil_suffix
    obtain ⟨new, hnew, hstands⟩ := ih (parserByte_keepsParserInv hinv hu) hseen' hrest
    rw [List.append_assoc, List.singleton_append] at hstands
    obtain hsame | ⟨m, p, hp, hev, hprog, hb⟩ := parserByte_events hinv hu
    · exact ⟨new, by rw [hnew, hsame], hstands⟩
    · refine ⟨.msg m (BitVec.ofNat 8 p.length) p :: new, by rw [hnew, hev]; simp, ?_⟩
      refine List.forall_mem_cons.mpr ⟨⟨before, rest, m, p, hp, rfl, ?_⟩, hstands⟩
      rw [← hbefore, hprog, ← hb]
      simp

/-- Settles O35: in `Idle` no frame is in progress. -/
theorem deliveredMessagesAreFramesOfTheStream : Obligations.DeliveredMessagesAreFramesOfTheStream := by
  intro s t bytes hr hs h
  obtain ⟨-, h⟩ := exec_rxs_eq_next.mp h
  have hinv : s.ParserInv := by simp [State.ParserInv, hs]
  exact parserBytes_events bytes (seen := []) hinv (by rw [State.inProgress_idle hs]) h

end Sys2Proof.Machine
end

section
/-! PROOFS. What no run can tell: registers and buffer bytes outside the frame in progress (10_state.md R28,
43_context_ops.md R204). Contexts that differ in those only are kept so by every step. -/

namespace Sys2Proof.Machine

/-! ### Contexts that differ outside the frame in progress -/

/-- The buffers read the same below `k`. -/
def State.SameBytes (s t : State) (k : Nat) : Prop := ∀ a < k, t.rxByte a = s.rxByte a

theorem State.SameBytes.zero (s t : State) : s.SameBytes t 0 := fun _ h => absurd h (Nat.not_lt_zero _)

/-- What the frame in progress has determined is the same. In `GotPayload` the cursor has done its work. -/
def State.SameFrame (s t : State) : Prop :=
  match s.state with
  | .idle => True
  | .gotSync => t.cursor = s.cursor ∧ t.crc = s.crc ∧ s.SameBytes t s.cursor.toNat
  | .gotId => t.msgId = s.msgId ∧ t.cursor = s.cursor ∧ t.crc = s.crc ∧ s.SameBytes t s.cursor.toNat
  | .gotLen =>
    t.msgId = s.msgId ∧ t.msgLen = s.msgLen ∧ t.cursor = s.cursor ∧ t.crc = s.crc ∧ s.SameBytes t s.cursor.toNat
  | .gotPayload => t.msgId = s.msgId ∧ t.msgLen = s.msgLen ∧ t.crc = s.crc ∧ s.SameBytes t s.msgLen.toNat

theorem State.sameFrame_gotSync {s t : State} (h : s.state = .gotSync) :
    s.SameFrame t ↔ t.cursor = s.cursor ∧ t.crc = s.crc ∧ s.SameBytes t s.cursor.toNat := by
  rw [State.SameFrame, h]

theorem State.sameFrame_gotId {s t : State} (h : s.state = .gotId) : s.SameFrame t ↔
    t.msgId = s.msgId ∧ t.cursor = s.cursor ∧ t.crc = s.crc ∧ s.SameBytes t s.cursor.toNat := by
  rw [State.SameFrame, h]

theorem State.sameFrame_gotLen {s t : State} (h : s.state = .gotLen) : s.SameFrame t ↔
    t.msgId = s.msgId ∧ t.msgLen = s.msgLen ∧ t.cursor = s.cursor ∧ t.crc = s.crc ∧
      s.SameBytes t s.cursor.toNat := by
  rw [State.SameFrame, h]

theorem State.sameFrame_gotPayload {s t : State} (h : s.state = .gotPayload) : s.SameFrame t ↔
    t.msgId = s.msgId ∧ t.msgLen = s.msgLen ∧ t.crc = s.crc ∧ s.SameBytes t s.msgLen.toNat := by
  rw [State.SameFrame, h]

/-- The states differ in the parser's registers and the buffer only, and on a ready context not in the frame in
progress. -/
def State.Alike (s t : State) : Prop :=
  ∃ (m l c r : Byte) (buf : RxBuf), t = { s with msgId := m, msgLen := l, cursor := c, crc := r, rxBuf := buf } ∧
    (s.ready = true → s.SameFrame t)

/-- Both answer alike states, or both stop in the same way. -/
def AlikeOutcome (x y : Outcome) : Prop :=
  match x, y with
  | .next s, .next t => s.Alike t
  | .fault p, .fault q => p = q
  | .refused p, .refused q => p = q
  | _, _ => False

theorem State.Alike.observe {s t : State} (h : s.Alike t) : t.observe = s.observe := by
  obtain ⟨m, l, c, r, buf, rfl, -⟩ := h
  rfl

theorem AlikeOutcome.indistinguishable {x y : Outcome} (h : AlikeOutcome x y) : Indistinguishable x y := by
  match x, y, h with
  | .next s, .next t, h => exact State.Alike.observe h |>.symm
  | .fault p, .fault q, h => exact h
  | .refused p, .refused q, h => exact h

theorem AlikeOutcome.andThen {x y : Outcome} {f g : State → Outcome} (h : AlikeOutcome x y)
    (hfg : ∀ {s t}, x = .next s → s.Alike t → AlikeOutcome (f s) (g t)) : AlikeOutcome (andThen x f) (andThen y g) := by
  match x, y, h with
  | .next s, .next t, h => exact hfg rfl h
  | .fault p, .fault q, h => exact h
  | .refused p, .refused q, h => exact h

theorem State.Alike.ready {s t : State} (h : s.Alike t) : t.ready = s.ready := by
  obtain ⟨m, l, c, r, buf, rfl, -⟩ := h
  rfl

theorem State.Alike.input {s t : State} (h : s.Alike t) : t.input = s.input := by
  obtain ⟨m, l, c, r, buf, rfl, -⟩ := h
  rfl

theorem State.Alike.whenReady {s t : State} {x y : Outcome} (h : s.Alike t)
    (hxy : s.ready = true → AlikeOutcome x y) : AlikeOutcome (whenReady s x) (whenReady t y) := by
  cases hr : s.ready with
  | true =>
    rw [whenReady_of_ready hr, whenReady_of_ready (h.ready.trans hr)]
    exact hxy hr
  | false =>
    rw [whenReady_of_not_ready hr, whenReady_of_not_ready (h.ready.trans hr)]
    exact (rfl : Refusal.notReady = .notReady)

/-- States in `Idle` need share nothing of a frame. -/
theorem State.alike_of_idle {s : State} (hs : s.state = .idle) (m l c r : Byte) (buf : RxBuf) :
    s.Alike { s with msgId := m, msgLen := l, cursor := c, crc := r, rxBuf := buf } :=
  ⟨m, l, c, r, buf, rfl, fun _ => by simp [State.SameFrame, hs]⟩

/-! ### Updates of alike states -/

/-- A store of the same byte at the same cursor. -/
theorem State.SameBytes.storeByte {s t : State} (h : s.SameBytes t s.cursor.toNat) (hc : t.cursor = s.cursor)
    (b : Byte) : (s.storeByte b).SameBytes (t.storeByte b) (s.cursor.toNat + 1) := by
  intro a ha
  by_cases hac : a = s.cursor.toNat
  · rw [hac, State.storeByte_rxByte_self, ← hc, State.storeByte_rxByte_self]
  · rw [State.storeByte_rxByte_other s b hac, State.storeByte_rxByte_other t b (hc ▸ hac)]
    exact h a (by omega)

/-- Views of the same bytes. -/
theorem State.SameBytes.rxView {s t : State} {k : Nat} (h : s.SameBytes t k) : t.rxView k = s.rxView k :=
  List.map_congr_left fun a ha => h a (List.mem_range.mp ha)

/-- Payload bytes: the same cursor decides between T_DATA, T_DATAEND and the fault. -/
theorem parserByte_alike_gotLen {s : State} {buf : RxBuf} (hs : s.state = .gotLen)
    (hbytes : s.SameBytes { s with rxBuf := buf } s.cursor.toNat) (b : Byte) :
    AlikeOutcome (parserByte b s) (parserByte b { s with rxBuf := buf }) := by
  by_cases hc : s.cursor.toNat < 250
  · have hstored := hbytes.storeByte rfl b
    rw [← cursor_succ_toNat hc] at hstored
    by_cases he : s.cursor + 1#8 = s.msgLen
    · rw [parserByte_dataEnd hs hc he, parserByte_dataEnd (s := { s with rxBuf := buf }) hs hc he]
      rw [he] at hstored
      exact ⟨_, _, _, _, buf.write s.cursor.toNat b, rfl, fun _ => ⟨rfl, rfl, rfl, hstored⟩⟩
    · rw [parserByte_data hs hc he, parserByte_data (s := { s with rxBuf := buf }) hs hc he]
      exact ⟨_, _, _, _, buf.write s.cursor.toNat b, rfl, fun _ => ⟨rfl, rfl, rfl, rfl, hstored⟩⟩
  · rw [parserByte_store_outside hs (Nat.le_of_not_lt hc),
      parserByte_store_outside (s := { s with rxBuf := buf }) hs (Nat.le_of_not_lt hc)]
    rfl

/-- The checksum byte: the same running CRC decides between T_ACCEPT and T_REJECT, and the view is of the same bytes. -/
theorem parserByte_alike_gotPayload {s : State} {c : Byte} {buf : RxBuf} (hs : s.state = .gotPayload)
    (hbytes : s.SameBytes { s with cursor := c, rxBuf := buf } s.msgLen.toNat) (b : Byte) :
    AlikeOutcome (parserByte b s) (parserByte b { s with cursor := c, rxBuf := buf }) := by
  by_cases hb : b = s.crc
  · subst hb
    by_cases hl : s.msgLen.toNat ≤ 250
    · have hmsg : State.messageEvent { s with cursor := c, rxBuf := buf } = s.messageEvent := by
        simp only [State.messageEvent, hbytes.rxView]
      rw [parserByte_accept hs hl, parserByte_accept (s := { s with cursor := c, rxBuf := buf }) hs hl, hmsg]
      exact ⟨_, _, _, _, buf, rfl, fun _ => trivial⟩
    · rw [parserByte_view_outside hs (Nat.lt_of_not_le hl),
        parserByte_view_outside (s := { s with cursor := c, rxBuf := buf }) hs (Nat.lt_of_not_le hl)]
      rfl
  · rw [parserByte_reject hs hb, parserByte_reject (s := { s with cursor := c, rxBuf := buf }) hs hb]
    exact ⟨_, _, _, _, buf, rfl, fun _ => trivial⟩

theorem parserState_cases (st : ParserState) :
    st = .idle ∨ st = .gotSync ∨ st = .gotId ∨ st = .gotLen ∨ st = .gotPayload := by
  cases st <;> simp

/-- A received byte does the same to alike contexts. -/
theorem parserByte_alike {s t : State} (h : s.Alike t) (hr : s.ready = true) (b : Byte) :
    AlikeOutcome (parserByte b s) (parserByte b t) := by
  obtain ⟨m, l, c, r, buf, rfl, hframe⟩ := h
  replace hframe := hframe hr
  rcases parserState_cases s.state with hs | hs | hs | hs | hs
  case inl =>
    let t : State := { s with msgId := m, msgLen := l, cursor := c, crc := r, rxBuf := buf }
    by_cases hb : b = 0xA5#8
    · rw [hb, parserByte_sync hs, parserByte_sync (s := t) hs]
      exact ⟨m, l, 0#8, 0#8, buf, rfl, fun _ => ⟨rfl, rfl, State.SameBytes.zero _ _⟩⟩
    · rw [parserByte_skip hs hb, parserByte_skip (s := t) hs hb]
      exact State.alike_of_idle hs m l c r buf
  case inr.inl =>
    obtain ⟨rfl, rfl, hbytes⟩ := (State.sameFrame_gotSync hs).mp hframe
    rw [parserByte_id hs, parserByte_id (s := { s with msgId := m, msgLen := l, rxBuf := buf }) hs]
    exact ⟨b, l, _, _, buf, rfl, fun _ => ⟨rfl, rfl, rfl, hbytes⟩⟩
  case inr.inr.inl =>
    obtain ⟨rfl, rfl, rfl, hbytes⟩ := (State.sameFrame_gotId hs).mp hframe
    let t : State := { s with msgLen := l, rxBuf := buf }
    by_cases h0 : b = 0#8
    · rw [h0, parserByte_len0 hs, parserByte_len0 (s := t) hs]
      exact ⟨_, _, _, _, buf, rfl, fun _ => ⟨rfl, rfl, rfl, State.SameBytes.zero _ _⟩⟩
    · by_cases hb : b.toNat ≤ 250
      · rw [parserByte_len hs h0 hb, parserByte_len (s := t) hs h0 hb]
        exact ⟨_, _, _, _, buf, rfl, fun _ => ⟨rfl, rfl, rfl, rfl, hbytes⟩⟩
      · rw [parserByte_lenOvf hs (Nat.lt_of_not_le hb), parserByte_lenOvf (s := t) hs (Nat.lt_of_not_le hb)]
        exact ⟨_, _, _, _, buf, rfl, fun _ => trivial⟩
  case inr.inr.inr.inl =>
    obtain ⟨rfl, rfl, rfl, rfl, hbytes⟩ := (State.sameFrame_gotLen hs).mp hframe
    exact parserByte_alike_gotLen hs hbytes b
  case inr.inr.inr.inr =>
    obtain ⟨rfl, rfl, rfl, hbytes⟩ := (State.sameFrame_gotPayload hs).mp hframe
    exact parserByte_alike_gotPayload hs hbytes b

theorem parserBytes_alike (bytes : List Byte) : ∀ {s t : State}, s.Alike t → s.ready = true →
    AlikeOutcome (parserBytes bytes s) (parserBytes bytes t) := by
  induction bytes with
  | nil => exact fun h _ => h
  | cons b rest ih =>
    intro s t h hr
    exact (parserByte_alike h hr b).andThen fun hu halike => ih halike ((parserByte_ready hu).trans hr)

/-- A result, an event and a count of alike contexts. -/
theorem State.Alike.answer {s t : State} (h : s.Alike t) (x : Result) : (s.answer x).Alike (t.answer x) := by
  obtain ⟨m, l, c, r, buf, rfl, hframe⟩ := h
  exact ⟨m, l, c, r, buf, rfl, hframe⟩

theorem State.Alike.sent {s t : State} (h : s.Alike t) (e : Event) :
    ((s.emit e).countSent).Alike ((t.emit e).countSent) := by
  obtain ⟨m, l, c, r, buf, rfl, hframe⟩ := h
  exact ⟨m, l, c, r, buf, rfl, hframe⟩

theorem State.Alike.popInput {s t : State} (h : s.Alike t) : s.popInput.Alike t.popInput := by
  obtain ⟨m, l, c, r, buf, rfl, hframe⟩ := h
  exact ⟨m, l, c, r, buf, rfl, hframe⟩

theorem State.Alike.init_true {s t : State} (h : s.Alike t) :
    AlikeOutcome (exec (.init true true) s) (exec (.init true true) t) := by
  obtain ⟨m, l, c, r, buf, rfl, -⟩ := h
  rw [exec_init_true, exec_init_true]
  exact ⟨_, _, _, _, buf, rfl, fun _ => trivial⟩

theorem State.Alike.clearParser {s t : State} (h : s.Alike t) : s.clearParser.Alike t.clearParser := by
  obtain ⟨m, l, c, r, buf, rfl, -⟩ := h
  exact ⟨_, _, _, _, buf, rfl, fun _ => trivial⟩

/-- Every operation of the owner does the same to alike contexts. -/
theorem exec_alike {i : Instr} {s t : State} (hf : i.format = .op) (h : s.Alike t) :
    AlikeOutcome (exec i s) (exec i t) := by
  cases i with
  | init hasMsg hasSink =>
    cases hok : hasMsg && hasSink with
    | true =>
      obtain ⟨rfl, rfl⟩ := Bool.and_eq_true_iff.mp hok
      exact h.init_true
    | false =>
      rw [exec_init_of_absent hok, exec_init_of_absent hok]
      exact h.answer _
  | rxb b => exact h.whenReady fun hr => parserByte_alike h hr b
  | rxs bytes => exact h.whenReady fun hr => parserBytes_alike bytes h hr
  | reset => exact h.whenReady fun _ => h.clearParser
  | send id n present pay =>
    refine h.whenReady fun _ => ?_
    split_ifs
    · rfl
    · exact (h.sent _).answer _
    · exact h.answer _
  | rdrx =>
    have hx : t.framesRx = s.framesRx := congrArg Observation.framesRx h.observe
    exact h.whenReady fun _ => hx ▸ h.answer _
  | rdrej =>
    have hx : t.framesRejected = s.framesRejected := congrArg Observation.framesRejected h.observe
    exact h.whenReady fun _ => hx ▸ h.answer _
  | rdtx =>
    have hx : t.framesTx = s.framesTx := congrArg Observation.framesTx h.observe
    exact h.whenReady fun _ => hx ▸ h.answer _
  | crc8 data => exact h.answer _
  | crcu r b => exact h.answer _
  | _ => simp [Instr.format] at hf

/-- A step does the same to alike contexts: the transfer amounts to the same operation. -/
theorem step_alike {s t : State} (h : s.Alike t) : AlikeOutcome (step s) (step t) := by
  cases hin : s.input with
  | nil =>
    rw [step_nil hin, step_nil (h.input.trans hin)]
    exact h
  | cons x rest =>
    rw [step_eq_perform hin, step_eq_perform (h.input.trans hin)]
    cases hop : x.payload.operation with
    | error e => rfl
    | ok i =>
      simp only [perform]
      split_ifs
      · exact exec_alike (Payload.operation_format hop) h.popInput
      · rfl

/-! ### Runs -/

section
variable {M : Host.Core} {s : M.State}

/-- A run goes on behind a step that answers, and stops where a step does. -/
theorem run_succ_of_next {t : M.State} (k : Nat) (h : M.step s = .next t) : M.run (k + 1) s = M.run k t := by
  rw [Host.Core.run, h]

theorem run_succ_of_fault {r : M.Fault} (k : Nat) (h : M.step s = .fault r) : M.run (k + 1) s = .fault r := by
  rw [Host.Core.run, h]

theorem run_succ_of_refused {r : M.Refusal} (k : Nat) (h : M.step s = .refused r) : M.run (k + 1) s = .refused r := by
  rw [Host.Core.run, h]

end

/-- A run of the engine is a step and the rest of the run. -/
theorem run_succ (k : Nat) (s : State) : Host.Core.run Sys2Proof.core (k + 1) s =
    andThen (step s) (Host.Core.run Sys2Proof.core k) := by
  cases h : step s with
  | next t => exact run_succ_of_next (M := Sys2Proof.core) k h
  | fault r => exact run_succ_of_fault (M := Sys2Proof.core) k h
  | refused r => exact run_succ_of_refused (M := Sys2Proof.core) k h

/-- Whatever is presented, runs from alike contexts come out alike. -/
theorem run_alike (k : Nat) : ∀ {s t : State}, s.Alike t →
    AlikeOutcome (Host.Core.run Sys2Proof.core k s) (Host.Core.run Sys2Proof.core k t) := by
  induction k with
  | zero => exact fun h => h
  | succ k ih =>
    intro s t h
    rw [run_succ, run_succ]
    exact (step_alike h).andThen fun _ hnext => ih hnext

/-! ### The statements -/

/-- Settles O44: in `Idle` RESET leaves an alike context. -/
theorem resetOnAnIdleContextCannotBeNoticed : Obligations.ResetOnAnIdleContextCannotBeNoticed := by
  intro s t k _ hs h
  obtain ⟨-, rfl⟩ := exec_reset_eq_next.mp h
  have halike : s.Alike s.clearParser := by
    rw [State.clearParser, ← hs]
    exact State.alike_of_idle hs 0#8 0#8 0#8 0#8 s.rxBuf
  exact (run_alike k halike).indistinguishable

/-- Under the invariant a buffer that agrees on the bytes held shares the frame in progress. -/
theorem State.Inv.alike_of_held {s : State} (hinv : s.Inv) {buf : RxBuf} (h : ∀ a < s.held, buf.read a = s.rxByte a) :
    s.Alike { s with rxBuf := buf } := by
  refine ⟨s.msgId, s.msgLen, s.cursor, s.crc, buf, rfl, fun hr => ?_⟩
  have hp := hinv.parserInv hr
  rcases parserState_cases s.state with hs | hs | hs | hs | hs <;> simp only [State.held, hs] at h
  · simp [State.SameFrame, hs]
  · obtain ⟨hcur, -⟩ := (State.parserInv_gotSync hs).mp hp
    exact (State.sameFrame_gotSync hs).mpr ⟨rfl, rfl, by rw [hcur]; exact State.SameBytes.zero _ _⟩
  · obtain ⟨hcur, -⟩ := (State.parserInv_gotId hs).mp hp
    exact (State.sameFrame_gotId hs).mpr ⟨rfl, rfl, rfl, by rw [hcur]; exact State.SameBytes.zero _ _⟩
  · exact (State.sameFrame_gotLen hs).mpr ⟨rfl, rfl, rfl, rfl, h⟩
  · obtain ⟨-, hcur, -⟩ := (State.parserInv_gotPayload hs).mp hp
    rw [hcur] at h
    exact (State.sameFrame_gotPayload hs).mpr ⟨rfl, rfl, rfl, h⟩

/-- Settles O59: bytes outside the frame in progress make no difference to any run. -/
theorem staleBufferBytesNeverLeave : Obligations.StaleBufferBytesNeverLeave :=
  fun _ _ k hinv h => (run_alike k (hinv.alike_of_held h)).indistinguishable

end Sys2Proof.Machine
end

section
/-! PROOFS. What each instruction leaves alone (10_state.md R29): the counters and the events, the buffer, the fields
outside its own column. -/

namespace Sys2Proof.Machine

/-! ### What a received byte does not look at -/

theorem State.delivered_length (s : State) (b : Byte) :
    (s.delivered b).length = if s.state = .gotPayload ∧ b = s.crc then 1 else 0 := by
  unfold State.delivered
  split_ifs <;> rfl

/-- Settles O27: another buffer is another state around the same receiving side. -/
theorem parserNeverReadsItsBuffer : Obligations.ParserNeverReadsItsBuffer := by
  intro s t b buf h
  obtain ⟨hr, h⟩ := exec_rxb_eq_next.mp h
  have ht := eq_of_parserByte h
  refine ⟨_, exec_rxb_eq_next.mpr ⟨hr, parserByte_withReceiver h { s with rxBuf := buf }⟩, ?_, ?_⟩
  · conv_rhs => rw [ht]
    conv_lhs => rw [ht]
    rfl
  · have hevents : t.events = s.events ++ s.delivered b := congrArg State.events ht
    rw [hevents]
    simp only [State.withReceiver, List.length_append, State.delivered_length]

/-- What SEND adds to a state it adds to every state of the same readiness; the receiving side and the buffer are not
touched. -/
theorem exec_send_effect {s a : State} {id : Byte} {n : TxLen} {present : Bool} {pay : List Byte}
    (h : exec (.send id n present pay) s = .next a) : ∃ (sent : List Event) (count : Count) (ok : Bool),
    a = { s with events := s.events ++ sent, framesTx := s.framesTx + count, results := s.results ++ [.ok ok] } ∧
    ∀ t : State, t.ready = s.ready → exec (.send id n present pay) t =
      .next { t with
        events := t.events ++ sent, framesTx := t.framesTx + count, results := t.results ++ [.ok ok] } := by
  obtain ⟨hr, ⟨hok, hlen, rfl⟩ | ⟨hfail, rfl⟩⟩ := exec_send_eq_next.mp h
  · exact ⟨[.sink (sendBurst id n pay)], 1, true, rfl,
      fun t ht => exec_send_eq_next.mpr ⟨ht.trans hr, .inl ⟨hok, hlen, rfl⟩⟩⟩
  · refine ⟨[], 0, false, by simp [State.answer], fun t ht => ?_⟩
    simpa using exec_send_of_not_sendOk id pay (ht.trans hr) hfail

/-- Settles O40: SEND leaves the receiving side and the buffer, and RXB looks at nothing else. -/
theorem sendAndReceiveCommute : Obligations.SendAndReceiveCommute := by
  intro s a b byte id n present pay hsend hrxb
  obtain ⟨hr, hrxb⟩ := exec_rxb_eq_next.mp hrxb
  obtain ⟨sent, count, ok, rfl, hsendAny⟩ := exec_send_effect hsend
  have hb := eq_of_parserByte hrxb
  have hevents : b.events = s.events ++ s.delivered byte := congrArg State.events hb
  refine ⟨sent, s.delivered byte, { b with framesTx := b.framesTx + count, results := b.results ++ [.ok ok] },
    rfl, hevents, ?_, ?_⟩
  · have hrun := parserByte_withReceiver hrxb { s with
      events := s.events ++ sent, framesTx := s.framesTx + count, results := s.results ++ [.ok ok] }
    refine exec_rxb_eq_next.mpr ⟨hr, hrun.trans ?_⟩
    conv_rhs => rw [hb]
    rfl
  · rw [hsendAny b (parserByte_ready hrxb), hevents]

/-! ### Counters and events -/

/-- Events are appended only, and the two counters go up by the events of their kind. -/
def State.CountsEvents (s t : State) : Prop :=
  ∃ new : List Event, t.events = s.events ++ new ∧
    t.framesRx = s.framesRx + BitVec.ofNat 32 (messagesIn new) ∧
    t.framesTx = s.framesTx + BitVec.ofNat 32 (sinksIn new)

theorem State.CountsEvents.of_same {s t : State} (he : t.events = s.events) (hrx : t.framesRx = s.framesRx)
    (htx : t.framesTx = s.framesTx) : s.CountsEvents t :=
  ⟨[], by simpa using he, by simpa [messagesIn] using hrx, by simpa [sinksIn] using htx⟩

theorem State.CountsEvents.trans {s t u : State} (h : s.CountsEvents t) (k : t.CountsEvents u) : s.CountsEvents u := by
  obtain ⟨x, hev, hrx, htx⟩ := h
  obtain ⟨y, kev, krx, ktx⟩ := k
  refine ⟨x ++ y, by rw [kev, hev, List.append_assoc], ?_, ?_⟩
  · rw [krx, hrx, messagesIn, messagesIn, messagesIn, List.countP_append, BitVec.ofNat_add, BitVec.add_assoc]
  · rw [ktx, htx, sinksIn, sinksIn, sinksIn, List.countP_append, BitVec.ofNat_add, BitVec.add_assoc]

theorem parserByte_countsEvents {b : Byte} {s t : State} (h : parserByte b s = .next t) : s.CountsEvents t := by
  rcases parserByte_cases h with
    ⟨-, -, rfl⟩ | ⟨-, -, rfl⟩ | ⟨-, rfl⟩ | ⟨-, -, rfl⟩ | ⟨-, -, rfl⟩ | ⟨-, -, -, rfl⟩ |
    ⟨-, -, -, rfl⟩ | ⟨-, -, -, rfl⟩ | ⟨-, -, -, rfl⟩ | ⟨-, -, rfl⟩
  iterate 8 exact .of_same rfl rfl rfl
  · exact ⟨[s.messageEvent], rfl, rfl, (BitVec.add_zero _).symm⟩
  · exact .of_same rfl rfl rfl

theorem parserBytes_countsEvents {bytes : List Byte} {s t : State} (h : parserBytes bytes s = .next t) :
    s.CountsEvents t :=
  parserBytes_induct (P := State.CountsEvents) (fun _ => .of_same rfl rfl rfl)
    (fun h1 h2 => (parserByte_countsEvents h1).trans h2) h

/-- Settles O53: SEND's sink event and the parser's message events are counted; every other instruction leaves events
and counters. -/
theorem countersCountTheEvents : Obligations.CountersCountTheEvents := by
  intro i s t h hinit
  show s.CountsEvents t
  cases i with
  | init hasMsg hasSink =>
    obtain ⟨rfl, rfl, -⟩ | ⟨-, rfl⟩ := exec_init_cases h
    · exact absurd rfl hinit
    · exact .of_same rfl rfl rfl
  | rxb b => exact parserByte_countsEvents (exec_rxb_eq_next.mp h).2
  | rxs bytes => exact parserBytes_countsEvents (exec_rxs_eq_next.mp h).2
  | frame id p check => exact parserBytes_countsEvents (exec_frame_eq_next.mp h).2
  | reset => obtain ⟨-, rfl⟩ := exec_reset_eq_next.mp h; exact .of_same rfl rfl rfl
  | send id n present pay =>
    obtain ⟨-, ⟨-, -, rfl⟩ | ⟨-, rfl⟩⟩ := exec_send_eq_next.mp h
    · exact ⟨[.sink (sendBurst id n pay)], rfl, (BitVec.add_zero _).symm, rfl⟩
    · exact .of_same rfl rfl rfl
  | rdrx => obtain ⟨-, rfl⟩ := exec_rdrx_eq_next.mp h; exact .of_same rfl rfl rfl
  | rdrej => obtain ⟨-, rfl⟩ := exec_rdrej_eq_next.mp h; exact .of_same rfl rfl rfl
  | rdtx => obtain ⟨-, rfl⟩ := exec_rdtx_eq_next.mp h; exact .of_same rfl rfl rfl
  | crc8 data => obtain rfl := exec_crc8_eq_next.mp h; exact .of_same rfl rfl rfl
  | crcu r b => obtain rfl := exec_crcu_eq_next.mp h; exact .of_same rfl rfl rfl
  | _ =>
    obtain ⟨b, -, -, hb⟩ := parserByte_of_exec_transition rfl h
    exact parserByte_countsEvents hb

/-- A received byte counts a rejection on an oversized length and on a wrong checksum. -/
theorem parserByte_framesRejected {b : Byte} {s t : State} (h : parserByte b s = .next t) :
    t.framesRejected = s.framesRejected +
      (if (s.state = .gotId ∧ 250 < b.toNat) ∨ (s.state = .gotPayload ∧ b ≠ s.crc) then 1 else 0) := by
  rcases parserByte_cases h with
    ⟨hs, -, rfl⟩ | ⟨hs, -, rfl⟩ | ⟨hs, rfl⟩ | ⟨hs, hb, rfl⟩ | ⟨hs, rfl, rfl⟩ | ⟨hs, -, hb, rfl⟩ |
    ⟨hs, -, -, rfl⟩ | ⟨hs, -, -, rfl⟩ | ⟨hs, hb, -, rfl⟩ | ⟨hs, hb, rfl⟩
  iterate 3 · simp [hs]
  · simp [hs, hb]
  · simp [hs]
  · simp [hs, Nat.not_lt.mpr hb]
  iterate 2 · simp [hs]
  · simp [hs, hb]
  · simp [hs, hb, inc]

/-- Settles O54: of the other instructions INIT clears the counter, and the rest leave it. -/
theorem onlyRejectionsCountAsRejected : Obligations.OnlyRejectionsCountAsRejected := by
  intro i s t h
  cases i with
  | init hasMsg hasSink =>
    obtain ⟨rfl, rfl, rfl⟩ | ⟨habsent, rfl⟩ := exec_init_cases h
    · rfl
    · simp [habsent]
  | rxb b => exact parserByte_framesRejected (exec_rxb_eq_next.mp h).2
  | rxs bytes => trivial
  | frame id p check => trivial
  | reset => obtain ⟨-, rfl⟩ := exec_reset_eq_next.mp h; rfl
  | send id n present pay => obtain ⟨-, ⟨-, -, rfl⟩ | ⟨-, rfl⟩⟩ := exec_send_eq_next.mp h <;> rfl
  | rdrx => obtain ⟨-, rfl⟩ := exec_rdrx_eq_next.mp h; rfl
  | rdrej => obtain ⟨-, rfl⟩ := exec_rdrej_eq_next.mp h; rfl
  | rdtx => obtain ⟨-, rfl⟩ := exec_rdtx_eq_next.mp h; rfl
  | crc8 data => obtain rfl := exec_crc8_eq_next.mp h; rfl
  | crcu r b => obtain rfl := exec_crcu_eq_next.mp h; rfl
  | tSync => obtain ⟨-, -, rfl⟩ := exec_tSync_eq_next.mp h; rfl
  | tSkip b => obtain ⟨-, -, rfl⟩ := exec_tSkip_eq_next.mp h; rfl
  | tId b => obtain ⟨-, -, rfl⟩ := exec_tId_eq_next.mp h; rfl
  | tLen0 => obtain ⟨-, -, rfl⟩ := exec_tLen0_eq_next.mp h; rfl
  | tLen b => obtain ⟨-, -, rfl⟩ := exec_tLen_eq_next.mp h; rfl
  | tLenOvf b => obtain ⟨-, -, rfl⟩ := exec_tLenOvf_eq_next.mp h; rfl
  | tData b => obtain ⟨-, -, -, rfl⟩ := exec_tData_eq_next.mp h; rfl
  | tDataEnd b => obtain ⟨-, -, -, rfl⟩ := exec_tDataEnd_eq_next.mp h; rfl
  | tAccept b => obtain ⟨-, -, -, rfl⟩ := exec_tAccept_eq_next.mp h; rfl
  | tReject b => obtain ⟨-, -, rfl⟩ := exec_tReject_eq_next.mp h; rfl

/-! ### The buffer -/

/-- Settles O55: only a byte of a sequence or a payload byte can be stored; no instruction presents or takes a
transfer. -/
theorem onlyTheParserStores : Obligations.OnlyTheParserStores := by
  intro i s t h
  cases i with
  | init hasMsg hasSink =>
    obtain ⟨-, -, rfl⟩ | ⟨-, rfl⟩ := exec_init_cases h <;> exact ⟨rfl, rfl, fun _ => rfl⟩
  | rxb b => exact ⟨(parserByte_sameBesideReceiver (exec_rxb_eq_next.mp h).2).input, trivial⟩
  | rxs bytes => exact ⟨(parserBytes_sameBesideReceiver (exec_rxs_eq_next.mp h).2).input, trivial⟩
  | frame id p check => exact ⟨(parserBytes_sameBesideReceiver (exec_frame_eq_next.mp h).2).input, trivial⟩
  | reset => obtain ⟨-, rfl⟩ := exec_reset_eq_next.mp h; exact ⟨rfl, rfl, fun _ => rfl⟩
  | send id n present pay =>
    obtain ⟨-, ⟨-, -, rfl⟩ | ⟨-, rfl⟩⟩ := exec_send_eq_next.mp h <;> exact ⟨rfl, rfl, fun _ => rfl⟩
  | rdrx => obtain ⟨-, rfl⟩ := exec_rdrx_eq_next.mp h; exact ⟨rfl, rfl, fun _ => rfl⟩
  | rdrej => obtain ⟨-, rfl⟩ := exec_rdrej_eq_next.mp h; exact ⟨rfl, rfl, fun _ => rfl⟩
  | rdtx => obtain ⟨-, rfl⟩ := exec_rdtx_eq_next.mp h; exact ⟨rfl, rfl, fun _ => rfl⟩
  | crc8 data => obtain rfl := exec_crc8_eq_next.mp h; exact ⟨rfl, rfl, fun _ => rfl⟩
  | crcu r b => obtain rfl := exec_crcu_eq_next.mp h; exact ⟨rfl, rfl, fun _ => rfl⟩
  | tSync => obtain ⟨-, -, rfl⟩ := exec_tSync_eq_next.mp h; exact ⟨rfl, rfl, fun _ => rfl⟩
  | tSkip b => obtain ⟨-, -, rfl⟩ := exec_tSkip_eq_next.mp h; exact ⟨rfl, rfl, fun _ => rfl⟩
  | tId b => obtain ⟨-, -, rfl⟩ := exec_tId_eq_next.mp h; exact ⟨rfl, rfl, fun _ => rfl⟩
  | tLen0 => obtain ⟨-, -, rfl⟩ := exec_tLen0_eq_next.mp h; exact ⟨rfl, rfl, fun _ => rfl⟩
  | tLen b => obtain ⟨-, -, rfl⟩ := exec_tLen_eq_next.mp h; exact ⟨rfl, rfl, fun _ => rfl⟩
  | tLenOvf b => obtain ⟨-, -, rfl⟩ := exec_tLenOvf_eq_next.mp h; exact ⟨rfl, rfl, fun _ => rfl⟩
  | tData b => obtain ⟨-, -, -, rfl⟩ := exec_tData_eq_next.mp h; exact ⟨rfl, trivial⟩
  | tDataEnd b => obtain ⟨-, -, -, rfl⟩ := exec_tDataEnd_eq_next.mp h; exact ⟨rfl, trivial⟩
  | tAccept b => obtain ⟨-, -, -, rfl⟩ := exec_tAccept_eq_next.mp h; exact ⟨rfl, rfl, fun _ => rfl⟩
  | tReject b => obtain ⟨-, -, rfl⟩ := exec_tReject_eq_next.mp h; exact ⟨rfl, rfl, fun _ => rfl⟩

/-- In `GotLen` a received byte stands at the cursor afterwards. -/
theorem parserByte_rxByte_cursor {b : Byte} {s t : State} (h : parserByte b s = .next t) (hs : s.state = .gotLen) :
    t.rxByte s.cursor.toNat = b ∧ s.cursor.toNat < 250 := by
  obtain ⟨-, hc, hbuf⟩ | ⟨hn, -⟩ := parserByte_rxBuf h
  · exact ⟨by rw [State.rxByte, hbuf, RxBuf.read_write_self], hc⟩
  · exact absurd hs hn

/-- Every other index reads as before. -/
theorem parserByte_rxByte_other {b : Byte} {s t : State} (h : parserByte b s = .next t) {a : Nat}
    (ha : s.state = .gotLen → a ≠ s.cursor.toNat) : t.rxByte a = s.rxByte a := by
  obtain ⟨hs, -, hbuf⟩ | ⟨-, hbuf⟩ := parserByte_rxBuf h
  · rw [State.rxByte, hbuf, RxBuf.read_write_other _ _ (ha hs), State.rxByte]
  · exact State.rxByte_congr hbuf a

/-- Settles O56: T_DATA and T_DATAEND do what RXB of their byte does. -/
theorem oneByteIsStoredAtTheCursor : Obligations.OneByteIsStoredAtTheCursor := by
  intro s t b i hi h
  have hb : parserByte b s = .next t := by
    obtain rfl | rfl | rfl := hi
    · exact (exec_rxb_eq_next.mp h).2
    · obtain ⟨_, henc, -, hb⟩ := parserByte_of_exec_transition rfl h
      cases henc
      exact hb
    · obtain ⟨_, henc, -, hb⟩ := parserByte_of_exec_transition rfl h
      cases henc
      exact hb
  exact ⟨parserByte_rxByte_cursor hb, fun a ha => parserByte_rxByte_other hb ha⟩

/-- An index that is not the cursor of a byte arriving in `GotLen` reads as before the sequence. -/
theorem parserBytes_rxByte_other {a : Nat} (bytes : List Byte) : ∀ {s t : State}, parserBytes bytes s = .next t →
    (∀ (before after : List Byte) (b : Byte) (u : State), bytes = before ++ [b] ++ after →
      parserBytes before s = .next u → u.state = .gotLen → a ≠ u.cursor.toNat) → t.rxByte a = s.rxByte a := by
  induction bytes with
  | nil =>
    intro s t h _
    rw [parserBytes_nil, next_eq_next] at h
    rw [h]
  | cons b rest ih =>
    intro s t h ha
    obtain ⟨u, hu, hrest⟩ := andThen_eq_next.mp h
    have hlater : t.rxByte a = u.rxByte a := by
      refine ih hrest fun before after c v hsplit hv => ha (b :: before) after c v (by rw [hsplit]; rfl) ?_
      rw [parserBytes_cons, hu, andThen_next, hv]
    rw [hlater]
    exact parserByte_rxByte_other hu (ha [] rest b s rfl rfl)

/-- A byte that arrives in `GotLen` stands at its cursor after the sequence, unless a later one arrives there. -/
theorem parserBytes_rxByte_cursor {before after : List Byte} {b : Byte} {s t u : State}
    (h : parserBytes (before ++ [b] ++ after) s = .next t) (hu : parserBytes before s = .next u)
    (hs : u.state = .gotLen)
    (hlater : ∀ (mid rest : List Byte) (c : Byte) (v : State), after = mid ++ [c] ++ rest →
      parserBytes (before ++ [b] ++ mid) s = .next v → v.state = .gotLen → v.cursor ≠ u.cursor) :
    t.rxByte u.cursor.toNat = b ∧ u.cursor.toNat < 250 := by
  rw [parserBytes_append] at h
  obtain ⟨w, hw, ht⟩ := andThen_eq_next.mp h
  have hb : parserByte b u = .next w := by
    rw [parserBytes_append, hu, andThen_next] at hw
    obtain ⟨w', hw', hnil⟩ := andThen_eq_next.mp hw
    rw [hw', ← hnil, parserBytes_nil]
  obtain ⟨hbyte, hc⟩ := parserByte_rxByte_cursor hb hs
  refine ⟨?_, hc⟩
  rw [parserBytes_rxByte_other after ht, hbyte]
  intro mid rest c v hsplit hv hvs heq
  refine hlater mid rest c v hsplit ?_ hvs (BitVec.eq_of_toNat_eq heq.symm)
  rw [parserBytes_append, hw, andThen_next, hv]

/-- Settles O57: FRAME is RXS of its bytes, and on the ready context RXS is the parser's run. -/
theorem sequencesStoreAtTheirCursorsOnly : Obligations.SequencesStoreAtTheirCursorsOnly := by
  intro s t bytes i hi h
  have hrxs : exec (.rxs bytes) s = .next t := by
    obtain rfl | ⟨id, p, check, rfl, rfl⟩ := hi
    · exact h
    · rwa [exec_frame] at h
  obtain ⟨hr, hrun⟩ := exec_rxs_eq_next.mp hrxs
  simp only [exec_rxs_of_ready hr]
  constructor
  · intro before after b u hsplit hu hs hlater
    exact parserBytes_rxByte_cursor (hsplit ▸ hrun) hu hs hlater
  · exact fun a ha => parserBytes_rxByte_other bytes hrun ha

/-! ### Fields outside the instruction's column -/

/-- 10_state.md R29, the parser's column: the configuration, `frames_tx` and the results are not in it. -/
theorem State.SameBesideReceiver.column {s t : State} (h : s.SameBesideReceiver t) :
    (t.ready = s.ready ∧ t.hasMsg = s.hasMsg ∧ t.hasSink = s.hasSink) ∧ t.framesTx = s.framesTx ∧
      t.results = s.results :=
  ⟨⟨h.ready, h.hasMsg, h.hasSink⟩, h.framesTx, h.results⟩

/-- Settles O58: each operation's next state is written out; the transitions do what RXB of their byte does. -/
theorem operationsTouchTheirOwnFieldsOnly : Obligations.OperationsTouchTheirOwnFieldsOnly := by
  intro i s t h parser receive config
  have whole : ∀ r : Result, t = s.answer r →
      parser ∧ receive ∧ config ∧ t.framesTx = s.framesTx ∧ t.events = s.events := by
    intro r hr
    simp only [parser, receive, config, hr]
    exact ⟨⟨rfl, rfl, rfl, rfl, rfl, rfl⟩, ⟨rfl, rfl⟩, ⟨rfl, rfl, rfl⟩, rfl, rfl⟩
  cases i with
  | init hasMsg hasSink =>
    obtain ⟨-, -, rfl⟩ | ⟨-, rfl⟩ := exec_init_cases h <;> exact ⟨rfl, rfl⟩
  | rxb b => exact (parserByte_sameBesideReceiver (exec_rxb_eq_next.mp h).2).column
  | rxs bytes => exact (parserBytes_sameBesideReceiver (exec_rxs_eq_next.mp h).2).column
  | frame id p check => exact (parserBytes_sameBesideReceiver (exec_frame_eq_next.mp h).2).column
  | reset =>
    obtain ⟨-, rfl⟩ := exec_reset_eq_next.mp h
    exact ⟨rfl, ⟨rfl, rfl⟩, ⟨rfl, rfl, rfl⟩, rfl, rfl, rfl⟩
  | send id n present pay =>
    obtain ⟨-, ⟨-, -, rfl⟩ | ⟨-, rfl⟩⟩ := exec_send_eq_next.mp h <;>
      exact ⟨⟨rfl, rfl, rfl, rfl, rfl, rfl⟩, ⟨rfl, rfl⟩, rfl, rfl, rfl⟩
  | rdrx => exact whole _ (exec_rdrx_eq_next.mp h).2
  | rdrej => exact whole _ (exec_rdrej_eq_next.mp h).2
  | rdtx => exact whole _ (exec_rdtx_eq_next.mp h).2
  | crc8 data => exact whole _ (exec_crc8_eq_next.mp h)
  | crcu r b => exact whole _ (exec_crcu_eq_next.mp h)
  | _ =>
    obtain ⟨b, -, -, hb⟩ := parserByte_of_exec_transition rfl h
    exact (parserByte_sameBesideReceiver hb).column

end Sys2Proof.Machine
end
